-- ==== Sys2Proof/Word.lean ====
section
/-! DEFINITION. The 64-bit word of the engine and the 16-bit byte offset of its register space (spec/10_state.md R21,
spec/20_memory.md R60). -/

namespace Sys2Proof

/-- Every register, `DATA` element, `RTAB` entry and command word is `W = 64` bits wide (R4, R21, R90). -/
abbrev Word := BitVec 64

/-- A byte offset of the host register space, 0x0000 to 0xFFFF (R60). -/
abbrev Offset := BitVec 16

/-- One byte lane of the bus (R63). -/
abbrev Byte := BitVec 8

/-- A natural number placed in a register: its low 64 bits. -/
abbrev u64 (n : Nat) : Word := BitVec.ofNat 64 n

end Sys2Proof
end

