-- ==== Sys2Proof/Config.lean ====
section
/-! DEFINITION. The implementation parameters of spec/00_scope.md R4 and the free values the spec leaves open. -/

namespace Sys2Proof

/-- The two parameters of R4 that change what the engine does. A state carries them (`State.params`), no step changes
them, and a statement about every state holds for every legal choice. `W` and `R` are fixed by R4. -/
structure Params where
  /-- `LMAX`, log2 of the largest transform length (1 to 12). -/
  lmax : Nat
  /-- `HAS_MODEXP`, whether the exponentiation unit is synthesized. -/
  hasModexp : Bool
  deriving DecidableEq, Repr

/-- `NMAX = 2^LMAX` (R4). -/
def Params.nmax (p : Params) : Nat := 2 ^ p.lmax

/-- The reference configuration of R4: `LMAX = 10`, `HAS_MODEXP = 1`. -/
def Params.reference : Params := { lmax := 10, hasModexp := true }

/-- The Montgomery radix `R = 2^64` (R4). -/
def montgomeryRadix : Nat := 2 ^ 64

/-- FREE VALUE (log entry 3). Seen from the `k`-th host event, how many further host events come before the engine has
its next turn. R280 bounds no number of host steps between acceptance and completion. -/
opaque Config.engineDelay : Nat → Nat

/-- FREE VALUE (log entry 4). `BASE / 65536`: the platform chooses a 64 KiB-aligned base address (R60). -/
opaque Config.basePage : Nat

/-- The parameter `BASE` of R60. -/
def Config.base : Nat := 65536 * Config.basePage

end Sys2Proof
end

