-- ==== Sys2Proof/Machine/Arith.lean ====
section
/-! DEFINITION. The exact arithmetic on unbounded integers that every unit uses (spec/00_scope.md R5 to R7,
spec/40_ntt_common.md R110 to R114). -/

namespace Sys2Proof.Machine

/-- R7: `ispow2(n)`; `ispow2(1)` holds and `ispow2(0)` does not. -/
def isPow2 (n : Nat) : Bool := n != 0 && 2 ^ n.log2 == n

/-- Square-and-multiply over `fuel` exponent bits: `b^e mod m` whenever `e < 2^fuel`. -/
def powModBits (m : Nat) : (fuel b e : Nat) → Nat
  | 0, _, _ => 1 % m
  | fuel + 1, b, e =>
    let rest := powModBits m fuel (b * b % m) (e / 2)
    if e % 2 = 1 then b * rest % m else rest

/-- R7: `pow(a, e, m) = a^e mod m`, with `a^0 = 1` for every `a`. The method is not observable (R200); that the value is
`a ^ e % m` is `Laws/Arith.lean`'s `powMod_eq`. -/
def powMod (a e m : Nat) : Nat := powModBits m (e.log2 + 1) (a % m) e

/-- R110: modular addition. -/
def addm (a b N : Nat) : Nat := (a + b) % N

/-- R110: modular subtraction, computed in ℤ; the result is in `[0, N)`. -/
def subm (a b N : Nat) : Nat := (((a : Int) - (b : Int)) % (N : Int)).toNat

/-- R110: modular multiplication. -/
def mulm (a b N : Nat) : Nat := (a * b) % N

/-- R111: the twiddle factor `r^k mod N`. -/
def tw (r k N : Nat) : Nat := powMod r k N

/-- R112: the inverse root `r^(n-1) mod N`. -/
def rinv (r n N : Nat) : Nat := powMod r (n - 1) N

/-- R113: the length inverse `((N+1) div 2)^L mod N` for `n = 2^L`. -/
def ninv (n N : Nat) : Nat := powMod ((N + 1) / 2) n.log2 N

/-- R114: every element times `f`, modulo `N`. -/
def scale (y : List Nat) (f N : Nat) : List Nat := y.map fun v => mulm v f N

end Sys2Proof.Machine
end

