-- ==== Sys2Proof/Syntax.lean ====
section
/-! DEFINITION. The commands of the engine, the "instructions" of spec/00_scope.md R2: one constructor for each row of
the opcode table of spec/30_encoding.md R92. A command word carries no operand field (R91). -/

namespace Sys2Proof

/-- The thirteen commands of R92. -/
inductive Instr where
  /-- `NOP`, OP 0x00 (R121). -/
  | nop
  /-- `NTT_FWD_ITER`, OP 0x01 (R164). -/
  | nttFwdIter
  /-- `NTT_INV_ITER`, OP 0x02 (R165). -/
  | nttInvIter
  /-- `NTT_FWD_REC`, OP 0x03 (R143). -/
  | nttFwdRec
  /-- `NTT_INV_REC`, OP 0x04 (R144). -/
  | nttInvRec
  /-- `NTT_FWD_NAIVE`, OP 0x05 (R122). -/
  | nttFwdNaive
  /-- `NTT_INV_NAIVE`, OP 0x06 (R122). -/
  | nttInvNaive
  /-- `MONT_SETUP`, OP 0x10 (R182). -/
  | montSetup
  /-- `MONT_TO`, OP 0x11 (R183). -/
  | montTo
  /-- `MONT_MUL`, OP 0x12 (R184). -/
  | montMul
  /-- `MONT_FROM`, OP 0x13 (R185). -/
  | montFrom
  /-- `MODEXP`, OP 0x20 (R200). -/
  | modexp
  /-- `ROOTCHK`, OP 0x21 (R201). -/
  | rootchk
  deriving DecidableEq, Repr

end Sys2Proof
end

