-- ==== Sys2Proof/WellFormed.lean ====
section
/-! DEFINITION. What is well formed: the parameters of R4, a command word (R93 to R95) and a command (R91). -/

namespace Sys2Proof

/-- R4: `LMAX` is 1 to 12. Both values of `HAS_MODEXP` are legal. -/
def Params.wf (p : Params) : Bool := 1 ≤ p.lmax && p.lmax ≤ 12

/-- R93: the assigned opcodes, `{0x00..0x06, 0x10..0x13, 0x20, 0x21}`. -/
def opAssigned (op : BitVec 8) : Bool :=
  op.toNat ≤ 0x06 || (0x10 ≤ op.toNat && op.toNat ≤ 0x13) || op.toNat == 0x20 || op.toNat == 0x21

/-- A command word that decodes: an assigned `OP` in bits 7:0 and zero `RSV` bits 63:8 (R90, R94, R95). -/
def commandWordWf (v : Word) : Bool :=
  opAssigned (v.extractLsb' 0 8) && v.extractLsb' 8 56 == 0

/-- A command has no operand field (R91), so there is nothing in it to be ill formed. -/
def Instr.wf : Instr → Bool
  | .nop | .nttFwdIter | .nttInvIter | .nttFwdRec | .nttInvRec | .nttFwdNaive | .nttInvNaive => true
  | .montSetup | .montTo | .montMul | .montFrom => true
  | .modexp | .rootchk => true

end Sys2Proof
end

