-- ==== Sys2Proof/Decode.lean ====
section
/-! DEFINITION. Decoding a command word and encoding a command (spec/30_encoding.md R90 to R96). The `UNSUPPORTED` checks
of R93 depend on the parameters and stand at the head of the meanings they concern, in the same order. -/

namespace Sys2Proof

/-- Why a command word selects no command. -/
inductive Reject where
  /-- R94: `OP` is not assigned, whatever `RSV` holds. -/
  | illegalOpcode
  /-- R95: `OP` is assigned and `RSV ≠ 0`. -/
  | reservedBits
  deriving DecidableEq, Repr

/-- The field `OP = v[7:0]` (R90). -/
def commandOp (v : Word) : BitVec 8 := v.extractLsb' 0 8

/-- The field `RSV = v[63:8]` (R90). -/
def commandRsv (v : Word) : BitVec 56 := v.extractLsb' 8 56

/-- The opcode map of R92, read from opcode to command. -/
def decodeOp (op : BitVec 8) : Option Instr :=
  match op with
  | 0x00#8 => some .nop
  | 0x01#8 => some .nttFwdIter
  | 0x02#8 => some .nttInvIter
  | 0x03#8 => some .nttFwdRec
  | 0x04#8 => some .nttInvRec
  | 0x05#8 => some .nttFwdNaive
  | 0x06#8 => some .nttInvNaive
  | 0x10#8 => some .montSetup
  | 0x11#8 => some .montTo
  | 0x12#8 => some .montMul
  | 0x13#8 => some .montFrom
  | 0x20#8 => some .modexp
  | 0x21#8 => some .rootchk
  | _ => none

/-- R93: the opcode is checked first, then the reserved bits. Total on every 64-bit value. -/
def decode (v : Word) : Except Reject Instr :=
  match decodeOp (commandOp v) with
  | none => .error .illegalOpcode
  | some i => if commandRsv v = 0 then .ok i else .error .reservedBits

/-- The opcode map of R92, read from command to opcode. -/
def opcode : Instr → BitVec 8
  | .nop => 0x00
  | .nttFwdIter => 0x01
  | .nttInvIter => 0x02
  | .nttFwdRec => 0x03
  | .nttInvRec => 0x04
  | .nttFwdNaive => 0x05
  | .nttInvNaive => 0x06
  | .montSetup => 0x10
  | .montTo => 0x11
  | .montMul => 0x12
  | .montFrom => 0x13
  | .modexp => 0x20
  | .rootchk => 0x21

/-- The command word `zext_64(OP)` of a command (R90, R98). -/
def encode (i : Instr) : Word := (opcode i).setWidth 64

/-- The command word of a table row whose `nbits` bits are `w`, every higher bit 0. -/
def tableWord (nbits w : Nat) : Word := BitVec.ofNat 64 (w % 2 ^ nbits)

/-- What the decoder reads from the opcode-table word `w` of `nbits` bits. The engine takes the whole 64-bit word from
one `CMD` write (R71, R97), so there is no byte order to undo. -/
def decodeTableWord (nbits w : Nat) : Option Instr :=
  match decode (tableWord nbits w) with
  | .ok i => some i
  | .error _ => none

end Sys2Proof
end

