-- ==== Sys2Proof/Machine/State.lean ====
section
/-! DEFINITION. The state of the engine and of its bus (spec/10_state.md), the reasons a step can stop, and the state
after power-on reset (spec/10_state.md R40, spec/70_reset_and_hazards.md R270). -/

namespace Sys2Proof.Machine

/-- The error codes 1 to 7 of spec/60_exceptions.md R241, by name. -/
inductive ErrCode where
  /-- Code 1: `OP` is not assigned. -/
  | illegalOpcode
  /-- Code 2: `CMD[63:8] ≠ 0`. -/
  | reservedBits
  /-- Code 3: the unit is not synthesized. -/
  | unsupported
  /-- Code 4: `MOD` even or below 3. -/
  | badModulus
  /-- Code 5: `LEN` not a power of two, or too long for a transform. -/
  | invalidLength
  /-- Code 6: `ROOT` or a level root not below `MOD`. -/
  | rootRange
  /-- Code 7: no Montgomery context. -/
  | noContext
  deriving DecidableEq, Repr

/-- One host bus access (R9, R62). `width` is in bytes; only 8 is legal. `value` of a write of another width is the part
of it that fits in a word: such a write is refused whatever it carries. -/
inductive Access where
  /-- `MemRead(off, width)`. -/
  | read (off : Offset) (width : Nat)
  /-- `MemWrite(off, width, value)`. -/
  | write (off : Offset) (width : Nat) (value : Word)
  deriving DecidableEq, Repr

/-- What the outside world does next. -/
inductive HostEvent where
  /-- The host makes one bus access. -/
  | access (a : Access)
  /-- The host repeats `rd STATUS` until the value has `BUSY = 0` and `DONE = 1`: the `wait` of R99. One read is one step,
  and the event stays until the read that ends it. -/
  | wait
  /-- A power-on reset (R270). -/
  | powerOn
  deriving DecidableEq, Repr

/-- The host's side of the bus: the model's own record of the host agent of R10, no state of the engine. -/
structure HostPort where
  /-- What the host does, oldest first. -/
  queue : List HostEvent
  /-- The words the host's reads have returned, oldest first. -/
  received : List Word
  /-- How many steps the host has taken: the argument of the free value `Config.engineDelay`. -/
  turn : Nat
  deriving DecidableEq, Repr

/-- `PEND ≠ none` (R37): the accepted command word and the value of `CTRL.RT_HOST` latched at acceptance. -/
structure Pending where
  cmd : Word
  rtHost : Bool
  deriving DecidableEq, Repr

/-- A buffer of 64-bit elements by index, the smallest unit the spec gives (R21, R62). An index that is not listed is a
poisoned element (R41). Canonical: indexes strictly rising (`Memory.wf`). -/
abbrev Memory := List (Nat × Word)

/-- Why the engine refuses a host access: the four causes of R64, in its order. -/
inductive BusErrorCause where
  /-- A width other than 64 bits, or an offset that is no multiple of 8. -/
  | illegalAccess
  /-- No register, `RTAB` entry or `DATA` element at the offset. -/
  | unmapped
  /-- A write to `ID`, `RESULT`, `MCTX_MOD` or `MCTX_INV`. -/
  | readOnly
  /-- Forbidden while a command is in flight (R68). -/
  | busy
  deriving DecidableEq, Repr

/-- Why the machine stops with a fault. No command raises one: a failing command completes with `STATUS.ERR` (R240). -/
inductive Fault where
  /-- A host access the engine refuses (R64: "A model gives the access a fault outcome"). Raised by `hostAccess`. Safe:
  the engine's state is unchanged, and what the platform does then is left open. -/
  | busError (cause : BusErrorCause) (off : Offset)
  /-- A host read of the poisoned element `DATA[i]` (R41: "A model should treat that read as a fault"). Raised by
  `hostAccess`. Safe: the chip returns some value. -/
  | poisonedRead (i : Nat)
  deriving DecidableEq, Repr

/-- Why the machine refuses an instruction. -/
inductive Refusal where
  /-- Raised only by an arm of `exec` for a command that has no meaning yet (there is none). Safe. -/
  | notModelled (mnemonic : String)
  deriving DecidableEq, Repr

/-- Everything the spec gives the machine. -/
structure State where
  /-- `LMAX` and `HAS_MODEXP` (R4): what this engine was built with. -/
  params : Params
  /-- `CTRL.IRQ_EN`, bit 1 (R23). -/
  irqEn : Bool
  /-- `CTRL.RT_HOST`, bit 2 (R23). -/
  rtHost : Bool
  /-- `STATUS.DONE`, bit 1 (R25). -/
  done : Bool
  /-- `STATUS.ERR`, bit 2 (R25). -/
  err : Bool
  /-- `STATUS.MCTX_VALID`, bit 3 (R25, R33). -/
  mctxValid : Bool
  /-- `STATUS.ERRCODE`, bits 15:8 (R25, R241). -/
  errcode : BitVec 8
  /-- `MOD`, the modulus `N` (R28). -/
  mod : Word
  /-- `ROOT`, the root `w` (R29). -/
  root : Word
  /-- `LEN`, the transform length `n` itself (R30). -/
  len : Word
  /-- `OPA`, scalar operand A (R31). -/
  opa : Word
  /-- `OPB`, scalar operand B (R31). -/
  opb : Word
  /-- `RESULT`, the last scalar result (R32). -/
  result : Word
  /-- `MCTX_MOD`, the context's modulus (R33). -/
  mctxMod : Word
  /-- `MCTX_INV`, the context's inverse modulo `2^64` (R33). -/
  mctxInv : Word
  /-- `RTAB[m]`, `m` below `LMAX` (R34). -/
  rtab : List Word
  /-- `DATA[i]`, `i` below `NMAX` (R35); an unlisted element is poisoned (R41). -/
  data : Memory
  /-- `SCRATCH[i]`, `i` below `NMAX` (R36); an unlisted element is unspecified. -/
  scratch : Memory
  /-- `PEND`, the command in flight (R37). `STATUS.BUSY` is `pend.isSome`. -/
  pend : Option Pending
  /-- The host agent's side (R10): the model's own field. -/
  port : HostPort
  deriving DecidableEq, Repr

/-- Power-on reset of an engine built with the parameters `p` (R40, R270): every register 0, no command in flight,
every `DATA` and `SCRATCH` element poisoned. -/
def State.resetWith (p : Params) : State where
  params := p
  irqEn := false
  rtHost := false
  done := false
  err := false
  mctxValid := false
  errcode := 0
  mod := 0
  root := 0
  len := 0
  opa := 0
  opb := 0
  result := 0
  mctxMod := 0
  mctxInv := 0
  rtab := List.replicate p.lmax 0
  data := []
  scratch := []
  pend := none
  port := { queue := [], received := [], turn := 0 }

/-- The engine of the reference configuration (R4) right after power-on reset. -/
def State.reset : State := State.resetWith Params.reference

end Sys2Proof.Machine
end

