-- ==== Sys2Proof/Machine/Flags.lean ====
section
/-! DEFINITION. The words of `ID`, `CTRL` and `STATUS` read whole, the error codes, and the interrupt output
(spec/10_state.md R22 to R26, spec/60_exceptions.md R241, R248). -/

namespace Sys2Proof.Machine

/-- The code of an error in `STATUS.ERRCODE` (R241). -/
def ErrCode.code : ErrCode → BitVec 8
  | .illegalOpcode => 1
  | .reservedBits => 2
  | .unsupported => 3
  | .badModulus => 4
  | .invalidLength => 5
  | .rootRange => 6
  | .noContext => 7

/-- The error a word that selects no command completes with (R94, R95). -/
def rejectCode : Reject → ErrCode
  | .illegalOpcode => .illegalOpcode
  | .reservedBits => .reservedBits

/-- A flag as a one-bit field. -/
def bit (b : Bool) : BitVec 1 := BitVec.ofBool b

/-- `ID` (R22): `MAGIC`, `VERSION`, `LMAX`, four zero bits, `HAS_MODEXP`, and `HAS_MONT`, `HAS_REC`, `HAS_ITER` all 1. -/
def idWord (p : Params) : Word :=
  0x45525958#32 ++ 0x0007#16 ++ BitVec.ofNat 8 p.lmax ++ 0#4 ++ bit p.hasModexp ++ 1#1 ++ 1#1 ++ 1#1

/-- `STATUS.BUSY` (R25, R37): a command is in flight. -/
def State.busy (s : State) : Bool := s.pend.isSome

/-- `CTRL` read whole (R23): `SRST` and the reserved bits read 0. -/
def State.ctrlWord (s : State) : Word := 0#61 ++ bit s.rtHost ++ bit s.irqEn ++ 0#1

/-- `STATUS` read whole (R25). -/
def State.statusWord (s : State) : Word :=
  0#48 ++ s.errcode ++ 0#4 ++ bit s.mctxValid ++ bit s.err ++ bit s.done ++ bit s.busy

/-- The level-sensitive interrupt output (R248). -/
def State.irq (s : State) : Bool := s.irqEn && s.done

end Sys2Proof.Machine
end

