-- ==== Sys2Proof/Machine/Ops.lean ====
section
/-! DEFINITION. The named operations over the state: buffers, registers, the address map, reset, accepting a command and
completing one (spec/10_state.md, spec/20_memory.md R61, spec/60_exceptions.md R243 to R245, spec/70_reset_and_hazards.md
R270 to R272). The engine has no traps (R240): an error is taken by completing the command with it, `State.failed`, and
nothing returns from an error (R247). -/

namespace Sys2Proof.Machine

/-! ## Buffers of elements that may be poisoned -/

/-- Element `i`; `none` when it is poisoned (R41). -/
def Memory.read : Memory → Nat → Option Word
  | [], _ => none
  | (j, w) :: m, i => if j = i then some w else Memory.read m i

/-- Element `i` takes the value `v` and is no longer poisoned (R41). -/
def Memory.write : Memory → Nat → Word → Memory
  | [], i, v => [(i, v)]
  | (j, w) :: m, i, v =>
    if i < j then (i, v) :: (j, w) :: m
    else if i = j then (i, v) :: m
    else (j, w) :: Memory.write m i v

/-- Elements `0 ..< n` become poisoned. -/
def Memory.poisonBelow (m : Memory) (n : Nat) : Memory := m.filter fun c => n ≤ c.1

/-- Elements `0 ..< ys.length` take the values `ys`. -/
def Memory.writeSeq (m : Memory) (ys : List Word) : Memory :=
  (ys.zipIdx.map fun c => (c.2, c.1)) ++ Memory.poisonBelow m ys.length

/-- No element of `0 ..< n` is poisoned. -/
def Memory.clean (m : Memory) (n : Nat) : Bool := (List.range n).all fun i => (Memory.read m i).isSome

/-- Elements `0 ..< n`, for a buffer that is clean there. -/
def Memory.readSeq (m : Memory) (n : Nat) : List Word := (List.range n).map fun i => (Memory.read m i).getD 0

/-- The canonical form: indexes strictly rising, so that equal buffers are equal lists. A listed element is never equal
to what an unlisted one reads as, which is no value. -/
def Memory.wf (m : Memory) : Bool := decide (List.Pairwise (fun a b => a < b) (m.map Prod.fst))

/-- Every listed index is below `n`. -/
def Memory.below (m : Memory) (n : Nat) : Bool := m.all fun c => decide (c.1 < n)

/-! ## The address map -/

/-- The twelve registers of R20. -/
inductive Reg where
  | id | ctrl | status | cmd | mod | root | len | opa | opb | result | mctxMod | mctxInv
  deriving DecidableEq, Repr

/-- What stands at a mapped offset (R61). -/
inductive Target where
  | reg (r : Reg)
  | rtab (m : Nat)
  | data (i : Nat)
  deriving DecidableEq, Repr

/-- The register at offset `8 * k` (R20). -/
def Reg.ofIndex : Nat → Option Reg
  | 0 => some .id
  | 1 => some .ctrl
  | 2 => some .status
  | 3 => some .cmd
  | 4 => some .mod
  | 5 => some .root
  | 6 => some .len
  | 7 => some .opa
  | 8 => some .opb
  | 9 => some .result
  | 10 => some .mctxMod
  | 11 => some .mctxInv
  | _ => none

/-- The offset of a register, an `RTAB` entry or a `DATA` element (R20). -/
def Target.offset : Target → Nat
  | .reg .id => 0x0000
  | .reg .ctrl => 0x0008
  | .reg .status => 0x0010
  | .reg .cmd => 0x0018
  | .reg .mod => 0x0020
  | .reg .root => 0x0028
  | .reg .len => 0x0030
  | .reg .opa => 0x0038
  | .reg .opb => 0x0040
  | .reg .result => 0x0048
  | .reg .mctxMod => 0x0050
  | .reg .mctxInv => 0x0058
  | .rtab m => 0x0100 + 8 * m
  | .data i => 0x8000 + 8 * i

/-- The map of R61 for the 8-byte word that holds byte offset `off`; `none` when it is unmapped. -/
def targetAt (p : Params) (off : Nat) : Option Target :=
  if off < 0x0060 then (Reg.ofIndex (off / 8)).map .reg
  else if 0x0100 ≤ off && off < 0x0100 + 8 * p.lmax then some (.rtab ((off - 0x0100) / 8))
  else if 0x8000 ≤ off && off < 0x8000 + 8 * p.nmax then some (.data ((off - 0x8000) / 8))
  else none

/-- The 64-bit value a host read of the target returns. `CMD` holds no value and reads 0 (R27). A poisoned element has
no value to return (R41). -/
def State.readTarget (s : State) : Target → Except Fault Word
  | .reg .id => .ok (idWord s.params)
  | .reg .ctrl => .ok s.ctrlWord
  | .reg .status => .ok s.statusWord
  | .reg .cmd => .ok 0
  | .reg .mod => .ok s.mod
  | .reg .root => .ok s.root
  | .reg .len => .ok s.len
  | .reg .opa => .ok s.opa
  | .reg .opb => .ok s.opb
  | .reg .result => .ok s.result
  | .reg .mctxMod => .ok s.mctxMod
  | .reg .mctxInv => .ok s.mctxInv
  | .rtab m => .ok (s.rtab.getD m 0)
  | .data i =>
    match s.data.read i with
    | some v => .ok v
    | none => .error (.poisonedRead i)

/-- Byte lane `b` of a 64-bit value: bits `8b+7 : 8b`, little-endian (R63). -/
def lane (v : Word) (b : Nat) : Byte := v.extractLsb' (8 * b) 8

/-- The byte the bus carries at byte offset `off`, at bus address `Config.base + off` (R63): lane `off mod 8` of the
register or element there; `none` when the offset is unmapped or the element poisoned. No access is narrower than 64
bits (R62): this is the byte view of the space that the frame statements use. -/
def State.byteAt (s : State) (off : Nat) : Option Byte :=
  match targetAt s.params off with
  | none => none
  | some t =>
    match s.readTarget t with
    | .ok v => some (lane v (off % 8))
    | .error _ => none

/-- The bus address of byte lane `b` of the word at offset `off` (R63). -/
def laneAddress (off b : Nat) : Nat := Config.base + off + b

/-! ## Reset -/

/-- R270: a power-on reset from any state. What the engine was built with and the host stay. -/
def State.powerOn (s : State) : State := { State.resetWith s.params with port := s.port }

/-- R272: the transform opcodes, looked at in bits 7:0 of the pending word whatever its other bits. -/
def abortsTransform (cmd : Word) : Bool :=
  commandOp cmd == 0x01#8 || commandOp cmd == 0x02#8 || commandOp cmd == 0x03#8 || commandOp cmd == 0x04#8

/-- `DATA` after a soft reset (R40, R271, R272): poisoned whole when a transform is abandoned, else unchanged. -/
def State.dataAfterSoftReset (s : State) : Memory :=
  match s.pend with
  | some p => if abortsTransform p.cmd then [] else s.data
  | none => s.data

/-- R271: every register except `ID` and every `RTAB` entry at its reset value, no command in flight, `SCRATCH`
unspecified. -/
def State.softReset (s : State) : State :=
  { State.resetWith s.params with data := s.dataAfterSoftReset, port := s.port }

/-! ## Host writes -/

/-- R24: a write of `CTRL`. With bit 0 set it is a soft reset and bits 2:1 are ignored. -/
def State.writeCtrl (s : State) (v : Word) : State :=
  if v.getLsbD 0 then s.softReset else { s with irqEn := v.getLsbD 1, rtHost := v.getLsbD 2 }

/-- R26: a write of `STATUS` clears the W1C bits it names; clearing `ERR` clears `ERRCODE`. -/
def State.writeStatus (s : State) (v : Word) : State :=
  { s with
    done := s.done && !v.getLsbD 1
    err := s.err && !v.getLsbD 2
    errcode := if v.getLsbD 2 then 0 else s.errcode }

/-- R243: the command word `v` is accepted. It is latched with `RT_HOST`; nothing is decoded and nothing checked. -/
def State.accept (s : State) (v : Word) : State :=
  { s with done := false, err := false, errcode := 0, pend := some { cmd := v, rtHost := s.rtHost } }

/-- The effect of an accepted host write of `v` to the target (R66). The four read-only registers refuse every write
before this (R64). -/
def State.writeTarget (s : State) (t : Target) (v : Word) : State :=
  match t with
  | .reg .ctrl => s.writeCtrl v
  | .reg .status => s.writeStatus v
  | .reg .cmd => s.accept v
  | .reg .mod => { s with mod := v }
  | .reg .root => { s with root := v }
  | .reg .len => { s with len := v }
  | .reg .opa => { s with opa := v }
  | .reg .opb => { s with opb := v }
  | .reg .id | .reg .result | .reg .mctxMod | .reg .mctxInv => s
  | .rtab m => { s with rtab := s.rtab.set m v }
  | .data i => { s with data := s.data.write i v }

/-! ## What commands write -/

/-- `RESULT <- n` (R32). -/
def State.setResult (s : State) (n : Nat) : State := { s with result := u64 n }

/-- The Montgomery context is built (R182). -/
def State.setContext (s : State) (m inv : Word) : State :=
  { s with mctxMod := m, mctxInv := inv, mctxValid := true }

/-- A transform's output (R119): the new `DATA`, and `SCRATCH` unspecified. -/
def State.setData (s : State) (d : Memory) : State := { s with data := d, scratch := [] }

/-! ## Completing a command -/

/-- R244, success: `DONE` is set and the command is no longer in flight. -/
def State.succeeded (s : State) : State := { s with done := true, pend := none }

/-- R244, R245: the command ends with error `e`; only `STATUS` and `PEND` change. -/
def State.failed (s : State) (e : ErrCode) : State :=
  { s with done := true, err := true, errcode := e.code, pend := none }

/-- The error of the first check that does not hold, in the order the checks are listed (R246). -/
def firstFailure : List (Bool × ErrCode) → Option ErrCode
  | [] => none
  | (ok, e) :: rest => if ok then firstFailure rest else some e

/-- R244: run a command. Either its first failing check ends it, or its writes are made; one indivisible step (R67). -/
def complete (checks : List (Bool × ErrCode)) (effect : State → State) (s : State) :
    Host.Outcome State Fault Refusal :=
  match firstFailure checks with
  | some e => .next (s.failed e)
  | none => .next (effect s).succeeded

end Sys2Proof.Machine
end

