-- ==== Sys2Proof/Machine/Operands.lean ====
section
/-! DEFINITION. Reading and checking the operands of a command (spec/40_ntt_common.md R115 to R117, R119,
spec/41_ntt_recursive.md R141, R142, R145, spec/43_montgomery.md R183, spec/44_modexp.md R201). Every operand is implicit
(R91). -/

namespace Sys2Proof.Machine

/-- R115: `MOD` is odd and at least 3. -/
def modOk (N : Nat) : Bool := N % 2 == 1 && decide (3 ≤ N)

/-- R116: a transform's length is a power of two no larger than `NMAX`. -/
def lenOk (p : Params) (n : Nat) : Bool := isPow2 n && decide (n ≤ p.nmax)

/-- R117: `ROOT < MOD`. -/
def rootOk (w N : Nat) : Bool := decide (w < N)

/-- `RTAB[m]` as a number. -/
def State.rtabEntry (s : State) (m : Nat) : Nat := (s.rtab.getD m 0).toNat

/-- `L` with `LEN = 2^L` (R141). -/
def State.logLen (s : State) : Nat := s.len.toNat.log2

/-- The value of `RT_HOST` the command uses: the one latched in `PEND` (R37). With no command in flight, the value
`CTRL` holds, which acceptance would latch (log entry 6). -/
def State.latchedRtHost (s : State) : Bool :=
  match s.pend with
  | some p => p.rtHost
  | none => s.rtHost

/-- R145: with `rt = 1`, every `RTAB[m]`, `1 ≤ m < L`, is below `N`. -/
def State.rtabOk (s : State) : Bool :=
  !s.latchedRtHost || (List.range s.logLen).all fun m => m == 0 || decide (s.rtabEntry m < s.mod.toNat)

/-- The checks of every transform, in order (R119). -/
def transformChecks (s : State) : List (Bool × ErrCode) :=
  [(modOk s.mod.toNat, .badModulus), (lenOk s.params s.len.toNat, .invalidLength),
    (rootOk s.root.toNat s.mod.toNat, .rootRange)]

/-- The checks of the recursive transforms: `check_rtab` comes last (R145, R246). -/
def recursiveChecks (s : State) : List (Bool × ErrCode) := transformChecks s ++ [(s.rtabOk, .rootRange)]

/-- The check of the Montgomery commands that use the context (R183 to R185). -/
def contextChecks (s : State) : List (Bool × ErrCode) := [(s.mctxValid, .noContext)]

/-- The checks of `MODEXP` (R200): the unit's presence (R93, R96), then the modulus. -/
def modexpChecks (s : State) : List (Bool × ErrCode) :=
  [(s.params.hasModexp, .unsupported), (modOk s.mod.toNat, .badModulus)]

/-- The checks of `ROOTCHK` (R201): no `NMAX` bound on `LEN`. -/
def rootchkChecks (s : State) : List (Bool × ErrCode) :=
  [(s.params.hasModexp, .unsupported), (modOk s.mod.toNat, .badModulus), (isPow2 s.len.toNat, .invalidLength),
    (rootOk s.root.toNat s.mod.toNat, .rootRange)]

/-- R141: the level roots of the forward recursive transform, `m` in `[1, L]`. -/
def State.rootFwd (s : State) (m : Nat) : Nat :=
  if m = s.logLen then s.root.toNat
  else if s.latchedRtHost then s.rtabEntry m
  else powMod s.root.toNat (2 ^ (s.logLen - m)) s.mod.toNat

/-- R142: the level roots of the inverse recursive transform, `m` in `[1, L]`. -/
def State.rootInv (s : State) (m : Nat) : Nat :=
  let winv := rinv s.root.toNat s.len.toNat s.mod.toNat
  if m = s.logLen then winv
  else if s.latchedRtHost then rinv (s.rtabEntry m) (2 ^ m) s.mod.toNat
  else powMod winv (2 ^ (s.logLen - m)) s.mod.toNat

/-- The sequence `x` a transform reads, `DATA[0 ..< n]` as numbers (R73, R119). -/
def State.inputSeq (s : State) : List Nat := (s.data.readSeq s.len.toNat).map BitVec.toNat

/-- R119, R41: a transform with the output function `F` writes `F x` to `DATA[0 ..< n]`; when an input element is
poisoned, all of `DATA[0 ..< n]` is poisoned. -/
def transformEffect (F : List Nat → List Nat) (s : State) : State :=
  if s.data.clean s.len.toNat then s.setData (s.data.writeSeq ((F s.inputSeq).map u64))
  else s.setData (s.data.poisonBelow s.len.toNat)

end Sys2Proof.Machine
end

