-- ==== Sys2Proof/Machine/Control.lean ====
section
/-! DEFINITION. `NOP` and the two opcodes of the naive transform, which is not synthesized (spec/40_ntt_common.md R121,
R122). -/

namespace Sys2Proof.Machine

/-- `NOP` (R121): it completes, and nothing else. -/
def execNop (s : State) : Host.Outcome State Fault Refusal := complete [] (fun t => t) s

/-- `NTT_FWD_NAIVE` (R122): always `UNSUPPORTED`; no operand is read. -/
def execNttFwdNaive (s : State) : Host.Outcome State Fault Refusal :=
  complete [(false, .unsupported)] (fun t => t) s

/-- `NTT_INV_NAIVE` (R122): always `UNSUPPORTED`; no operand is read. -/
def execNttInvNaive (s : State) : Host.Outcome State Fault Refusal :=
  complete [(false, .unsupported)] (fun t => t) s

end Sys2Proof.Machine
end

