-- ==== Sys2Proof/Machine/Iterative.lean ====
section
/-! DEFINITION. The iterative radix-2 NTT butterfly engine (spec/42_ntt_iterative.md R160 to R165). -/

namespace Sys2Proof.Machine

/-- One butterfly of the stage with span `ns`: `j` reads `a[j]` and `a[j + n/2]` and writes `b[d]` and `b[d + ns]`. -/
def iterButterfly (N r n ns : Nat) (a b : List Nat) (j : Nat) : List Nat :=
  let k := ((j % ns) * n) / (ns * 2)
  let v0 := a.getD j 0
  let v1 := mulm (tw r k N) (a.getD (j + n / 2) 0) N
  let d := (j / ns) * ns * 2 + j % ns
  (b.set d (addm v0 v1 N)).set (d + ns) (subm v0 v1 N)

/-- One stage: every `j` in `0 ..< n/2`. What `b` holds before does not reach the result (R162). -/
def iterStage (N r n ns : Nat) (a : List Nat) : List Nat :=
  (List.range (n / 2)).foldl (iterButterfly N r n ns a) (List.replicate n 0)

/-- `while ns < n`, the buffers swapped and `ns` doubled after each stage; `fuel` bounds the number of stages. -/
def iterLoop (N r n : Nat) : (fuel ns : Nat) → List Nat → List Nat
  | 0, _, a => a
  | fuel + 1, ns, a => if ns < n then iterLoop N r n fuel (ns * 2) (iterStage N r n ns a) else a

/-- R160: `ITER_CORE(x, N, r)`, of `L = log2(n)` stages. -/
def iterCore (x : List Nat) (N r : Nat) : List Nat := iterLoop N r x.length x.length.log2 1 x

/-- R164: `FWD_ITER`. A sequence of length 1 is reduced (R120). -/
def fwdIter (x : List Nat) (N w : Nat) : List Nat :=
  if x.length = 1 then x.map (· % N) else iterCore x N w

/-- R165: `INV_ITER`. -/
def invIter (x : List Nat) (N w : Nat) : List Nat :=
  scale (iterCore x N (rinv w x.length N)) (ninv x.length N) N

/-- `NTT_FWD_ITER` (R164). -/
def execNttFwdIter (s : State) : Host.Outcome State Fault Refusal :=
  complete (transformChecks s) (fun t => transformEffect (fun x => fwdIter x t.mod.toNat t.root.toNat) t) s

/-- `NTT_INV_ITER` (R165). -/
def execNttInvIter (s : State) : Host.Outcome State Fault Refusal :=
  complete (transformChecks s) (fun t => transformEffect (fun x => invIter x t.mod.toNat t.root.toNat) t) s

end Sys2Proof.Machine
end

