-- ==== Sys2Proof/Machine/Modexp.lean ====
section
/-! DEFINITION. The modular exponentiation unit (spec/44_modexp.md R200, R201). -/

namespace Sys2Proof.Machine

/-- `MODEXP` (R200). -/
def execModexp (s : State) : Host.Outcome State Fault Refusal :=
  complete (modexpChecks s) (fun t => t.setResult (powMod t.opa.toNat t.opb.toNat t.mod.toNat)) s

/-- R201: `w` has multiplicative order exactly `n` modulo `N`, for `n` a power of two. -/
def rootOrderOk (w n N : Nat) : Bool :=
  powMod w n N == 1 && (n == 1 || powMod w (n / 2) N != 1)

/-- `ROOTCHK` (R201). A wrong order is `RESULT = 0`, no error. -/
def execRootchk (s : State) : Host.Outcome State Fault Refusal :=
  complete (rootchkChecks s)
    (fun t => t.setResult (if rootOrderOk t.root.toNat t.len.toNat t.mod.toNat then 1 else 0)) s

end Sys2Proof.Machine
end

