-- ==== Sys2Proof/Machine/Montgomery.lean ====
section
/-! DEFINITION. The Montgomery modular multiplier, radix 2^64 (spec/43_montgomery.md R180 to R185). -/

namespace Sys2Proof.Machine

/-- R180: `REDC(a, b, m, minv)`, with the difference in ℤ and `m` added when it is negative. -/
def redc (a b m minv : Nat) : Nat :=
  let t := a * b
  let high := t / montgomeryRadix
  let low := t % montgomeryRadix
  let q := (low * minv) % montgomeryRadix
  let res : Int := (high : Int) - ((q * m / montgomeryRadix : Nat) : Int)
  (if res < 0 then res + (m : Int) else res).toNat

/-- One Newton step towards the inverse of `m` modulo `2^64`. -/
def minvStep (m x : Word) : Word := x * (2 - m * x)

/-- R181: `MINV(m)`, the `x` with `m * x mod 2^64 = 1` for odd `m`. An odd `m` is its own inverse modulo 8, and each of
the five steps doubles the number of correct bits. The method is not observable; that the product is 1 is
`Laws/Montgomery.lean`'s `mul_minv`. -/
def minv (m : Word) : Word := minvStep m (minvStep m (minvStep m (minvStep m (minvStep m m))))

/-- R183: `TO(x) = (x * 2^64) mod m`. The radix is the left factor because Lean's kernel multiplies by recursion on the
right one. -/
def toMontgomery (x m : Nat) : Nat := (montgomeryRadix * x) % m

/-- `MONT_SETUP` (R182). -/
def execMontSetup (s : State) : Host.Outcome State Fault Refusal :=
  complete [(modOk s.mod.toNat, .badModulus)] (fun t => t.setContext t.mod (minv t.mod)) s

/-- `MONT_TO` (R183). -/
def execMontTo (s : State) : Host.Outcome State Fault Refusal :=
  complete (contextChecks s) (fun t => t.setResult (toMontgomery t.opa.toNat t.mctxMod.toNat)) s

/-- `MONT_MUL` (R184). -/
def execMontMul (s : State) : Host.Outcome State Fault Refusal :=
  complete (contextChecks s)
    (fun t => t.setResult (redc t.opa.toNat t.opb.toNat t.mctxMod.toNat t.mctxInv.toNat)) s

/-- `MONT_FROM` (R185). -/
def execMontFrom (s : State) : Host.Outcome State Fault Refusal :=
  complete (contextChecks s) (fun t => t.setResult (redc t.opa.toNat 1 t.mctxMod.toNat t.mctxInv.toNat)) s

end Sys2Proof.Machine
end

