-- ==== Sys2Proof/Machine/Recursive.lean ====
section
/-! DEFINITION. The recursive radix-2 NTT butterfly pipeline (spec/41_ntt_recursive.md R140 to R145). -/

namespace Sys2Proof.Machine

/-- `[x[0], x[2], ...]`. -/
def evens : List Nat → List Nat
  | [] => []
  | [a] => [a]
  | a :: _ :: rest => a :: evens rest

/-- `[x[1], x[3], ...]`. -/
def odds : List Nat → List Nat
  | [] => []
  | [_] => []
  | _ :: b :: rest => b :: odds rest

/-- The combine step of R140 for the level root `r`: `X[k] = p + q` and `X[k + h] = p - q` with `p = E[k]` and
`q = r^k · O[k]`, for `k` in `0 ..< h`. -/
def combine (N r h : Nat) (E O : List Nat) : List Nat :=
  let q := fun k => mulm (tw r k N) (O.getD k 0) N
  ((List.range h).map fun k => addm (E.getD k 0) (q k) N) ++ (List.range h).map fun k => subm (E.getD k 0) (q k) N

/-- R140: `REC_CORE(x, N, root)` for a sequence of length `2^m`. Length 1 returns it unchanged, not reduced. -/
def recCore (N : Nat) (root : Nat → Nat) : (m : Nat) → List Nat → List Nat
  | 0, x => x
  | m + 1, x => combine N (root (m + 1)) (2 ^ m) (recCore N root m (evens x)) (recCore N root m (odds x))

/-- R143: `FWD_REC`. A sequence of length 1 is reduced (R120). -/
def fwdRec (x : List Nat) (N : Nat) (root : Nat → Nat) : List Nat :=
  if x.length = 1 then x.map (· % N) else recCore N root x.length.log2 x

/-- R144: `INV_REC`. Only the outermost result is scaled. -/
def invRec (x : List Nat) (N : Nat) (root : Nat → Nat) : List Nat :=
  scale (recCore N root x.length.log2 x) (ninv x.length N) N

/-- `NTT_FWD_REC` (R143). -/
def execNttFwdRec (s : State) : Host.Outcome State Fault Refusal :=
  complete (recursiveChecks s) (fun t => transformEffect (fun x => fwdRec x t.mod.toNat t.rootFwd) t) s

/-- `NTT_INV_REC` (R144). -/
def execNttInvRec (s : State) : Host.Outcome State Fault Refusal :=
  complete (recursiveChecks s) (fun t => transformEffect (fun x => invRec x t.mod.toNat t.rootInv) t) s

end Sys2Proof.Machine
end

