-- ==== Sys2Proof/Machine/Dispatch.lean ====
section
/-! DEFINITION. One meaning for each command: the completion step of R244 for a command that decodes. -/

namespace Sys2Proof.Machine

def exec (i : Instr) (s : State) : Host.Outcome State Fault Refusal :=
  match i with
  | .nop => Sys2Proof.Machine.execNop s
  | .nttFwdIter => Sys2Proof.Machine.execNttFwdIter s
  | .nttInvIter => Sys2Proof.Machine.execNttInvIter s
  | .nttFwdRec => Sys2Proof.Machine.execNttFwdRec s
  | .nttInvRec => Sys2Proof.Machine.execNttInvRec s
  | .nttFwdNaive => Sys2Proof.Machine.execNttFwdNaive s
  | .nttInvNaive => Sys2Proof.Machine.execNttInvNaive s
  | .montSetup => Sys2Proof.Machine.execMontSetup s
  | .montTo => Sys2Proof.Machine.execMontTo s
  | .montMul => Sys2Proof.Machine.execMontMul s
  | .montFrom => Sys2Proof.Machine.execMontFrom s
  | .modexp => Sys2Proof.Machine.execModexp s
  | .rootchk => Sys2Proof.Machine.execRootchk s

end Sys2Proof.Machine
end

