-- ==== Sys2Proof/Machine/Engine.lean ====
section
/-! DEFINITION. The engine agent: its one kind of step completes the command in flight (spec/60_exceptions.md R244). -/

namespace Sys2Proof.Machine

/-- R244: decode the word (R93), then run the command or report the decoder's error. -/
def completeCommand (v : Word) (s : State) : Host.Outcome State Fault Refusal :=
  match decode v with
  | .ok i => exec i s
  | .error r => .next (s.failed (rejectCode r))

/-- The engine's step. With no command in flight the engine is idle and keeps all its state (R255, R273). -/
def engineStep (s : State) : Host.Outcome State Fault Refusal :=
  match s.pend with
  | some p => completeCommand p.cmd s
  | none => .next s

/-- The command word `v` is accepted and no host event comes before its completion. -/
def State.withCommand (s : State) (v : Word) : State :=
  { s.accept v with port := { s.port with queue := [] } }

end Sys2Proof.Machine
end

