-- ==== Sys2Proof/Machine/HostBus.lean ====
section
/-! DEFINITION. The host agent: which accesses the engine refuses and what the others do (spec/20_memory.md R60 to R72),
and the host notation of spec/30_encoding.md R98 and R99. -/

namespace Sys2Proof.Machine

def Access.off : Access → Offset
  | .read off _ => off
  | .write off _ _ => off

def Access.width : Access → Nat
  | .read _ width => width
  | .write _ width _ => width

def Access.isWrite : Access → Bool
  | .read _ _ => false
  | .write _ _ _ => true

/-- R62: a 64-bit access at a multiple of 8. -/
def Access.legal (a : Access) : Bool := a.width == 8 && a.off.toNat % 8 == 0

/-- R20, R64: a write to these is refused. -/
def Target.readOnly : Target → Bool
  | .reg .id | .reg .result | .reg .mctxMod | .reg .mctxInv => true
  | _ => false

/-- R68: the accesses accepted while a command is in flight. -/
def Target.allowedBusy (t : Target) (isWrite : Bool) : Bool :=
  match t with
  | .reg .id => !isWrite
  | .reg .ctrl | .reg .status => true
  | _ => false

/-- R64: an access is refused for the first of the four causes that holds, and otherwise reaches the target at its
offset (R72). -/
def Access.route (a : Access) (s : State) : Except BusErrorCause Target :=
  if !a.legal then .error .illegalAccess
  else
    match targetAt s.params a.off.toNat with
    | none => .error .unmapped
    | some t =>
      if a.isWrite && t.readOnly then .error .readOnly
      else if s.busy && !t.allowedBusy a.isWrite then .error .busy
      else .ok t

/-- A read's value reaches the host. -/
def State.receive (s : State) (v : Word) : State :=
  { s with port := { s.port with received := s.port.received ++ [v] } }

/-- One host access: refused with a bus error (R64), or done in one indivisible step (R67). A read changes no state of
the engine (R65). -/
def hostAccess (a : Access) (s : State) : Host.Outcome State Fault Refusal :=
  match a.route s with
  | .error cause => .fault (.busError cause a.off)
  | .ok t =>
    match a with
    | .write _ _ v => .next (s.writeTarget t v)
    | .read _ _ =>
      match s.readTarget t with
      | .ok v => .next (s.receive v)
      | .error f => .fault f

/-- The host has taken a step, with `queue` still to come. -/
def State.tookEvent (s : State) (queue : List HostEvent) : State :=
  { s with port := { s.port with queue := queue, turn := s.port.turn + 1 } }

/-- R99: the `STATUS` value that ends a `wait` has bit 0 (`BUSY`) = 0 and bit 1 (`DONE`) = 1. -/
def waitEnds (status : Word) : Bool := !status.getLsbD 0 && status.getLsbD 1

/-- The host's step for the event `ev`, with `rest` after it. One step of a `wait` is one `rd STATUS`; the `wait` stays
the host's next event until the value read ends it (R99, log entry 5). -/
def hostStep (ev : HostEvent) (rest : List HostEvent) (s : State) : Host.Outcome State Fault Refusal :=
  match ev with
  | .access a => hostAccess a (s.tookEvent rest)
  | .wait => hostAccess (.read 0x0010 8) (s.tookEvent (if waitEnds s.statusWord then rest else .wait :: rest))
  | .powerOn => .next (s.tookEvent rest).powerOn

/-- Whether the engine has its turn before the `k`-th host event: the turns are the numbers `j + Config.engineDelay j`.
Whatever the free value is, a turn lies ahead of every host event, which is the completion fairness of R280; and every
endless series of turns is that of some value (log entry 3). -/
def engineFirst (k : Nat) : Bool := (List.range (k + 1)).any fun j => j + Config.engineDelay j == k

/-- Whether the engine moves before the host's next event. While a command is in flight both agents can move, and R280
leaves open which does: a free value. -/
def engineMoves (s : State) : Bool := s.busy && engineFirst s.port.turn

/-! ## The host notation of R98 and R99 -/

/-- `wr REG, imm`. -/
def hostWr (t : Target) (v : Word) : HostEvent := .access (.write (BitVec.ofNat 16 t.offset) 8 v)

/-- `rd REG`. -/
def hostRd (t : Target) : HostEvent := .access (.read (BitVec.ofNat 16 t.offset) 8)

/-- `cmdw imm`. -/
def hostCmdw (v : Word) : HostEvent := hostWr (.reg .cmd) v

/-- `cmd MNEMONIC`. -/
def hostCmd (i : Instr) : HostEvent := hostCmdw (encode i)

/-- `run MNEMONIC`: `cmd` then `wait`. -/
def hostRun (i : Instr) : List HostEvent := [hostCmd i, .wait]

/-- `clr`: `wr STATUS, 0x6`. -/
def hostClr : HostEvent := hostWr (.reg .status) 0x6

/-- `load [v0, ..., vk]`. -/
def hostLoad (vs : List Word) : List HostEvent := vs.zipIdx.map fun c => hostWr (.data c.2) c.1

/-- `dump k`. -/
def hostDump (k : Nat) : List HostEvent := (List.range k).map fun i => hostRd (.data i)

end Sys2Proof.Machine
end

