-- ==== Sys2Proof/Machine/Step.lean ====
section
/-! DEFINITION. One step of the machine: one of the two agents of spec/00_scope.md R10 moves (spec/20_memory.md R69,
spec/60_exceptions.md R249). -/

namespace Sys2Proof.Machine

/-- One step: the host's next event, or the engine's completion of the command in flight. -/
def step (s : State) : Host.Outcome State Fault Refusal :=
  match s.port.queue with
  | [] => engineStep s
  | ev :: rest => if engineMoves s then engineStep s else hostStep ev rest s

/-- The state in which the very next step runs the table word `w` (log entry 7): the engine fetches no instructions
(R71), so the word is placed as an accepted `CMD` write places it, and no host event comes first. -/
def State.withFetchWord (s : State) (nbits w : Nat) : State := s.withCommand (tableWord nbits w)

end Sys2Proof.Machine
end

