-- ==== Sys2Proof/Machine/Reference.lean ====
section
/-! DEFINITION. Reference functions of the spec that no command computes: the naive transform (spec/40_ntt_common.md R118)
and the host-side contracts (spec/48_host_reference.md R221 to R225, spec/44_modexp.md R202). No step calls them. -/

namespace Sys2Proof.Machine

/-- R118: `NAIVE_FWD(x, N, w)[k] = (Σ_j x[j] · w^(jk)) mod N`. -/
def naiveFwd (x : List Nat) (N w : Nat) : List Nat :=
  (List.range x.length).map fun k =>
    ((List.range x.length).map fun j => x.getD j 0 * powMod w (j * k) N).sum % N

/-- The modular inverse of `a` modulo `N`, when there is one. -/
def modInverse (a N : Nat) : Option Nat := (List.range N).find? fun y => a * y % N == 1 % N

/-- R118: `NAIVE_INV(X, N, w)[j] = (ninv · Σ_k X[k] · wi^(jk)) mod N`, with the inverses `wi` of `w` and `ninv` of the
length modulo `N`. `none` where it is not defined: one of the two inverses does not exist. -/
def naiveInv (X : List Nat) (N w : Nat) : Option (List Nat) :=
  match modInverse w N, modInverse X.length N with
  | some wi, some ninv =>
    some ((List.range X.length).map fun j =>
      ninv * ((List.range X.length).map fun k => X.getD k 0 * powMod wi (j * k) N).sum % N)
  | _, _ => none

/-- No divisor of `n` from `d` up to its square root; `fuel` bounds the number of candidates. -/
def noDivisorFrom (n : Nat) : (fuel d : Nat) → Bool
  | 0, _ => true
  | fuel + 1, d => if n < d * d then true else if n % d = 0 then false else noDivisorFrom n fuel (d + 1)

/-- `is_prime` of R221, by trial division; any correct test gives the same result (R222). -/
def isPrime (n : Nat) : Bool := decide (2 ≤ n) && noDivisorFrom n n 2

/-- The search loop of R221 over `k`. -/
def searchModulus (n : Nat) : (fuel k : Nat) → Option Nat
  | 0, _ => none
  | fuel + 1, k => if isPrime (k * n + 1) then some (k * n + 1) else searchModulus n fuel (k + 1)

/-- R221: `find_modulus(base, n)`. `none` is `NoPrimeFound`: the iteration count exceeds `ceiling`, the parameter
`CEILING` (R222). -/
def findModulus (base n ceiling : Nat) : Option Nat :=
  searchModulus n (ceiling + 1) ((base * base * n - 2 + (n - 1)) / n)

/-- The prime factors of `n`, ascending. -/
def primeFactors (n : Nat) : List Nat := (List.range (n + 1)).filter fun p => isPrime p && n % p == 0

/-- R202: `w` has multiplicative order exactly `n` modulo `N`, for any `n ≥ 1`. -/
def orderOk (w n N : Nat) : Bool :=
  powMod w n N == 1 && (primeFactors n).all fun p => powMod w (n / p) N != 1

/-- The search loop of R223 over the candidates `x`, ascending. -/
def searchRoot (n N : Nat) : (fuel x : Nat) → Option Nat
  | 0, _ => none
  | fuel + 1, x => if orderOk x n N then some x else searchRoot n N fuel (x + 1)

/-- R223: `find_primitive_root(n, N)`, candidates `1 .. N - 1` in ascending order. `none` is `NoPrimitiveRootFound`
(R224). -/
def findPrimitiveRoot (n N : Nat) : Option Nat := searchRoot n N (N - 1) 1

/-! ## The source's API as host programs (R220, R225) -/

/-- The operands and the sequence of a transform call. -/
def apiOperands (x : List Word) (N w : Word) : List HostEvent :=
  [hostWr (.reg .mod) N, hostWr (.reg .len) (u64 x.length), hostWr (.reg .root) w] ++ hostLoad x

/-- R225: `ntt_forward` or `ntt_inverse` of the sequence `x`, by the command `i` of the variant. -/
def apiTransform (i : Instr) (x : List Word) (N w : Word) : List HostEvent :=
  apiOperands x N w ++ hostRun i ++ hostDump x.length

/-- R225: before a recursive call, `RT_HOST <- 1` and `RTAB[1], RTAB[2], ...` take the given level roots. -/
def apiLevelRoots (roots : List Word) : List HostEvent :=
  hostWr (.reg .ctrl) 0x4 :: roots.zipIdx.map fun c => hostWr (.rtab (c.2 + 1)) c.1

/-- R225: the level roots that re-derive a root for every sub-length of `2^L`, when each search succeeds. -/
def rederivedRoots (L N : Nat) : Option (List Word) :=
  (List.range (L - 1)).mapM fun k => (findPrimitiveRoot (2 ^ (k + 1)) N).map u64

/-- R225: once for each Montgomery context. -/
def apiContext (m : Word) : List HostEvent := hostWr (.reg .mod) m :: hostRun .montSetup

/-- R225: `montgomery_multiply`, the context built before. -/
def apiMontgomeryMultiply (a b : Word) : List HostEvent :=
  [hostWr (.reg .opa) a, hostWr (.reg .opb) b] ++ hostRun .montMul ++ [hostRd (.reg .result)]

end Sys2Proof.Machine
end

