-- ==== Sys2Proof/Safety.lean ====
section
/-! DEFINITION. The invariant of the machine's states and what a safe run is, in the terms the statements use. -/

namespace Sys2Proof.Machine

/-- What every reachable state satisfies. -/
structure State.Wf (s : State) : Prop where
  /-- `LMAX` is 1 to 12 (R4). -/
  params : s.params.wf = true
  /-- There are `LMAX` entries of `RTAB` (R34). -/
  rtabLength : s.rtab.length = s.params.lmax
  /-- `DATA` is in canonical form. -/
  dataCanonical : s.data.wf = true
  /-- `DATA` has `NMAX` elements (R35). -/
  dataBound : s.data.below s.params.nmax = true
  /-- `SCRATCH` is in canonical form. -/
  scratchCanonical : s.scratch.wf = true
  /-- `SCRATCH` has `NMAX` elements (R36). -/
  scratchBound : s.scratch.below s.params.nmax = true
  /-- R25: `ERRCODE ≠ 0` if and only if `ERR = 1`. -/
  errcodeIffErr : s.errcode ≠ 0 ↔ s.err = true
  /-- R241: the codes 8 to 255 are never reported. -/
  errcodeKnown : s.errcode.toNat ≤ 7
  /-- R25: `BUSY = 1` implies `DONE = 0` and `ERR = 0`. -/
  busyClear : s.busy = true → s.done = false ∧ s.err = false
  /-- R33: a valid context has an odd modulus of at least 3 and its inverse modulo `2^64`. -/
  contextInverse : s.mctxValid = true →
    s.mctxMod.toNat % 2 = 1 ∧ 3 ≤ s.mctxMod.toNat ∧ (s.mctxMod.toNat * s.mctxInv.toNat) % 2 ^ 64 = 1

/-- Right after power-on of an engine built with `p`, with a host about to do `queue`. -/
def State.started (p : Params) (queue : List HostEvent) : State :=
  { State.resetWith p with port := { queue := queue, received := [], turn := 0 } }

/-- The states a run reaches, for every legal choice of parameters and whatever the host does. -/
inductive Reachable : State → Prop where
  | started (p : Params) (legal : p.wf = true) (queue : List HostEvent) : Reachable (State.started p queue)
  | after {s t : State} (before : Reachable s) (moved : step s = .next t) : Reachable t

/-! ## Conditions the statements use, in the spec's own numbers -/

/-- R61: something stands at byte offset `off`. -/
def MappedOffset (p : Params) (off : Nat) : Prop :=
  off < 0x0060 ∨ (0x0100 ≤ off ∧ off < 0x0100 + 8 * p.lmax) ∨ (0x8000 ≤ off ∧ off < 0x8000 + 8 * 2 ^ p.lmax)

/-- R66: the offset of a register, `RTAB` entry or `DATA` element whose write stores its value and does nothing else:
`MOD`, `ROOT`, `LEN`, `OPA`, `OPB`, `RTAB[m]`, `DATA[i]`. -/
def StorageOffset (p : Params) (off : Nat) : Prop :=
  (∃ k < 5, off = 0x0020 + 8 * k) ∨ (∃ m < p.lmax, off = 0x0100 + 8 * m) ∨ (∃ i < 2 ^ p.lmax, off = 0x8000 + 8 * i)

/-- R68: the accesses accepted while a command is in flight. -/
def Access.AllowedWhileBusy (a : Access) : Prop :=
  a = .read 0x0000 8 ∨ a = .read 0x0008 8 ∨ a = .read 0x0010 8 ∨ ∃ v, a = .write 0x0008 8 v ∨ a = .write 0x0010 8 v

/-- R115: `MOD` is odd and at least 3. -/
def State.ModulusOk (s : State) : Prop := s.mod.toNat % 2 = 1 ∧ 3 ≤ s.mod.toNat

/-- R115 to R117: the operands a transform checks, with `LEN = 2^L`. -/
def State.TransformReady (s : State) (L : Nat) : Prop :=
  s.ModulusOk ∧ s.len.toNat = 2 ^ L ∧ 2 ^ L ≤ 2 ^ s.params.lmax ∧ s.root.toNat < s.mod.toNat

/-- R145: every level root the host supplies, `RTAB[m]` for `1 ≤ m < L`, is below `MOD`. -/
def State.LevelRootsReady (s : State) (L : Nat) : Prop :=
  ∀ m, 1 ≤ m → m < L → (s.rtab.getD m 0).toNat < s.mod.toNat

/-- R125, its third hypothesis for `RT_HOST = 1`: every level root the host supplies is the power of `ROOT` of its level. -/
def State.LevelRootsChained (s : State) (L : Nat) : Prop :=
  ∀ m, 1 ≤ m → m < L → (s.rtab.getD m 0).toNat = s.root.toNat ^ 2 ^ (L - m) % s.mod.toNat

/-- R39: only the recursive transforms read the latched `RT_HOST`, and `RTAB` when it is 1. For one of them a command is in
flight and, when its `RT_HOST` is 1, `P` holds; of every other command nothing is asked. -/
def State.HostRootsMeet (s : State) (i : Instr) (P : Prop) : Prop :=
  i ∈ [Instr.nttFwdRec, .nttInvRec] → ∃ p, s.pend = some p ∧ (p.rtHost = true → P)

/-- No element of `DATA[0 ..< LEN]` is poisoned (R41). -/
def State.InputWritten (s : State) : Prop := ∀ i < s.len.toNat, s.data.read i ≠ none

/-- `DATA[i]` as a number; for an element that is not poisoned. -/
def State.dataNat (s : State) (i : Nat) : Nat := ((s.data.read i).getD 0).toNat

/-- `[DATA[0], ..., DATA[n-1]]`, the sequence of R73. -/
def State.sequence (s : State) (n : Nat) : List Nat := (List.range n).map s.dataNat

/-- `t` holds `y` in `DATA[0 ..< y.length]` and reads like `s` in every other `DATA` element (R119). -/
def HoldsOutput (s t : State) (y : List Nat) : Prop :=
  ∀ i, t.data.read i = if i < y.length then some (u64 (y.getD i 0)) else s.data.read i

/-- `t` is `s` after a transform has completed: only `DATA`, `SCRATCH` (unspecified), `DONE` and `PEND` differ (R119). -/
def TransformDone (s t : State) : Prop :=
  t = { s with data := t.data, scratch := [], done := true, pend := none }

/-- `s` after a command has completed with the error code `c` (R244, R245). -/
def State.withError (s : State) (c : BitVec 8) : State := { s with done := true, err := true, errcode := c, pend := none }

/-- The next step does not stop the machine. -/
def StepSafe (s : State) : Prop := ∃ t, step s = .next t

end Sys2Proof.Machine
end

