-- ==== Sys2Proof/Certificates/Slice0/Obligations.lean ====
section
/-! DEFINITION. The statements for the provers, from the numbered rules of the spec. -/

open Sys2Proof Sys2Proof.Machine

/-! ## Encoding -/

/-- R92: the word of every row of the opcode table, written out, decodes to its command. The decoder of R93 fails the rows of
0x05 and 0x06, and those of 0x20 and 0x21 when the unit is absent, with `UNSUPPORTED`; that here they decode and fail in their
meaning is the model's choice (log entry 14). -/
def Obligations.OpcodeTableWordsDecode : Prop :=
  decode 0x0000000000000000#64 = .ok .nop ∧
  decode 0x0000000000000001#64 = .ok .nttFwdIter ∧
  decode 0x0000000000000002#64 = .ok .nttInvIter ∧
  decode 0x0000000000000003#64 = .ok .nttFwdRec ∧
  decode 0x0000000000000004#64 = .ok .nttInvRec ∧
  decode 0x0000000000000005#64 = .ok .nttFwdNaive ∧
  decode 0x0000000000000006#64 = .ok .nttInvNaive ∧
  decode 0x0000000000000010#64 = .ok .montSetup ∧
  decode 0x0000000000000011#64 = .ok .montTo ∧
  decode 0x0000000000000012#64 = .ok .montMul ∧
  decode 0x0000000000000013#64 = .ok .montFrom ∧
  decode 0x0000000000000020#64 = .ok .modexp ∧
  decode 0x0000000000000021#64 = .ok .rootchk

/-- R92: decoding an encoded well-formed command gives it back. That the word of a command whose unit is absent decodes,
and fails with `UNSUPPORTED` in its meaning and not in the decoder as in R93, is the model's choice (log entry 14). -/
def Obligations.DecodeOfEncodeGivesTheCommand : Prop :=
  ∀ i : Instr, i.wf = true → decode (encode i) = .ok i

/-- R90, R92: a 64-bit value decodes to a command exactly when it is that command's word; every other value is rejected.
The decoder of R93 fails the two naive words, and those of an absent exponentiation unit, with `UNSUPPORTED`; that here they
decode and fail in their meaning is the model's split of that procedure (log entry 14). -/
def Obligations.OnlyTheEncodingDecodesToACommand : Prop :=
  ∀ (v : Word) (i : Instr), decode v = .ok i ↔ v = encode i

/-- R94: a word whose `OP` is 0x07 to 0x0F, 0x14 to 0x1F or 0x22 to 0xFF completes with `ILLEGAL_OPCODE` whatever its
`RSV` bits hold. -/
def Obligations.IllegalOpcodeCompletesWithCodeOne : Prop :=
  ∀ (s : State) (p : Pending), s.pend = some p →
    (0x07 ≤ p.cmd.toNat % 256 ∧ p.cmd.toNat % 256 ≤ 0x0F) ∨ (0x14 ≤ p.cmd.toNat % 256 ∧ p.cmd.toNat % 256 ≤ 0x1F) ∨
      0x22 ≤ p.cmd.toNat % 256 →
    engineStep s = .next (s.withError 1)

/-- R95: a word with an assigned `OP` and `RSV ≠ 0` completes with `RESERVED_BITS`. -/
def Obligations.ReservedBitsCompleteWithCodeTwo : Prop :=
  ∀ (s : State) (p : Pending), s.pend = some p →
    p.cmd.toNat % 256 ≤ 0x06 ∨ (0x10 ≤ p.cmd.toNat % 256 ∧ p.cmd.toNat % 256 ≤ 0x13) ∨ p.cmd.toNat % 256 = 0x20 ∨
      p.cmd.toNat % 256 = 0x21 →
    p.cmd.toNat / 256 ≠ 0 → engineStep s = .next (s.withError 2)

/-- R96, R122: the naive opcodes always complete with `UNSUPPORTED`, and the exponentiation opcodes do when the unit is
absent. -/
def Obligations.AbsentUnitsCompleteWithCodeThree : Prop :=
  ∀ s : State,
    exec .nttFwdNaive s = .next (s.withError 3) ∧ exec .nttInvNaive s = .next (s.withError 3) ∧
      (s.params.hasModexp = false →
        exec .modexp s = .next (s.withError 3) ∧ exec .rootchk s = .next (s.withError 3))

/-! ## Steps -/

/-- R244: when it is the engine's turn, a step with a decodable command in flight runs that command. It is the engine's
turn when no host event is to come, or when `engineMoves` says so (log entry 3). -/
def Obligations.StepRunsTheDecodedCommand : Prop :=
  ∀ (s : State) (p : Pending) (i : Instr), s.pend = some p → decode p.cmd = .ok i →
    (s.port.queue = [] ∨ engineMoves s = true) → step s = exec i s

/-- R249: every step is one agent's move. With no host event to come it is the engine's, and an idle engine keeps all its
state (R255, R273). With a host event to come it is the host's on an idle engine; while a command is in flight it is the one
agent's or the other's (log entry 3). -/
def Obligations.EveryStepIsOneAgentsMove : Prop :=
  ∀ s : State,
    (s.port.queue = [] → step s = engineStep s) ∧
      (s.pend = none → engineStep s = .next s) ∧
      (∀ ev rest, s.port.queue = ev :: rest →
        (s.pend = none → step s = hostStep ev rest s) ∧
          (s.pend ≠ none → step s = engineStep s ∨ step s = hostStep ev rest s))

/-- R280, with the model's free order of the agents: a command in flight completes, however many times a host polls
`STATUS` first. -/
def Obligations.PolledCommandCompletes : Prop :=
  ∀ (n : Nat) (s : State), s.pend ≠ none → s.port.queue = List.replicate n (.access (.read 0x0010 8)) →
    ∃ k ≤ n + 1, ∃ t, Sys2Proof.core.run k s = .next t ∧ t.pend = none ∧ t.done = true

/-- R99, with the fairness of R280 (log entries 3 and 5): a `wait` is repeated reads of `STATUS`, each returned to the host.
On an idle engine the read with `DONE = 1` ends it, and with `DONE = 0` it goes on. With a command in flight some number of
reads return `BUSY = 1` and change nothing, then the engine completes the command, and the next read ends the `wait`. -/
def Obligations.WaitReadsStatusUntilTheCommandCompletes : Prop :=
  ∀ (s : State) (rest : List HostEvent), s.port.queue = .wait :: rest →
    (s.pend = none → s.done = true → step s = .next { s with port :=
      { queue := rest, received := s.port.received ++ [s.statusWord], turn := s.port.turn + 1 } }) ∧
    (s.pend = none → s.done = false → step s = .next { s with port :=
      { queue := .wait :: rest, received := s.port.received ++ [s.statusWord], turn := s.port.turn + 1 } }) ∧
    (s.pend ≠ none → ∃ (n : Nat) (u t : State),
      u = { s with port := { queue := .wait :: rest, received := s.port.received ++ List.replicate n s.statusWord,
                             turn := s.port.turn + n } } ∧
        s.statusWord.getLsbD 0 = true ∧ Sys2Proof.core.run n s = .next u ∧
        engineStep u = .next t ∧ t.pend = none ∧ t.done = true ∧ t.port = u.port ∧
        Sys2Proof.core.run (n + 2) s = .next { t with port :=
          { queue := rest, received := u.port.received ++ [t.statusWord], turn := u.port.turn + 1 } })

/-- R240: no command stops the machine. From every state every command completes: `DONE` is set, nothing is in flight,
and either `ERR` and `ERRCODE` are untouched or an error with a code of 1 to 7 is reported. -/
def Obligations.EveryCommandCompletes : Prop :=
  ∀ (i : Instr) (s : State), ∃ t, exec i s = .next t ∧ t.done = true ∧ t.pend = none ∧
    ((t.err = s.err ∧ t.errcode = s.errcode) ∨ (t.err = true ∧ 1 ≤ t.errcode.toNat ∧ t.errcode.toNat ≤ 7))

/-- R41, R64, R240: only a host access stops the machine, with a bus error or at a poisoned element that exists; nothing
is ever refused. -/
def Obligations.OnlyAHostAccessStopsTheMachine : Prop :=
  ∀ s : State,
    (∀ f, step s = .fault f → ∃ a rest, s.port.queue = .access a :: rest ∧
      ((∃ c, f = .busError c a.off) ∨
        ∃ i < 2 ^ s.params.lmax, a = .read (BitVec.ofNat 16 (0x8000 + 8 * i)) 8 ∧ s.data.read i = none ∧
          f = .poisonedRead i)) ∧
      ∀ r, step s ≠ .refused r

/-- R4: no step changes the parameters, so `ID` reads the same throughout a run (R22). -/
def Obligations.ParametersNeverChange : Prop :=
  ∀ s t : State, step s = .next t → t.params = s.params ∧ idWord t.params = idWord s.params

/-! ## Reset and the invariant -/

/-- R40, R270: what a power-on reset leaves, from every state. The model's own choices in it: the host's side is kept and a
host event makes the reset in one step (log entry 10); the parameters are kept, and `State.resetWith p`, the state an engine
with the parameters `p` starts in and its own power-on reset, holds `p` (log entry 1). -/
def Obligations.PowerOnResetValues : Prop :=
  ∀ s : State,
    let t := s.powerOn
    t.ctrlWord = 0 ∧ t.statusWord = 0 ∧ t.mod = 0 ∧ t.root = 0 ∧ t.len = 0 ∧ t.opa = 0 ∧ t.opb = 0 ∧
      t.result = 0 ∧ t.mctxMod = 0 ∧ t.mctxInv = 0 ∧ t.rtab.length = s.params.lmax ∧ (∀ m, t.rtab.getD m 0 = 0) ∧
      t.pend = none ∧ (∀ i, t.data.read i = none) ∧ (∀ i, t.scratch.read i = none) ∧ t.irq = false ∧
      t.params = s.params ∧ t.port = s.port ∧
      (∀ rest, hostStep .powerOn rest s =
        .next { t with port := { s.port with queue := rest, turn := s.port.turn + 1 } }) ∧
      ∀ p : Params, (State.resetWith p).powerOn = State.resetWith p ∧ (State.resetWith p).params = p

/-- The state right after a power-on satisfies the invariant, for every legal choice of parameters and every host. -/
def Obligations.PowerOnSatisfiesTheInvariant : Prop :=
  ∀ (p : Params) (queue : List HostEvent), p.wf = true → (State.started p queue).Wf

/-- R25, R33, R37, R241 and the canonical form of the buffers: every step keeps the invariant, from every state that
meets it. -/
def Obligations.EveryStepKeepsTheInvariant : Prop :=
  ∀ s t : State, s.Wf → step s = .next t → t.Wf

/-! ## Host accesses -/

/-- R243, R27: a `CMD` write to an idle engine is accepted whatever the word, which is latched with `RT_HOST`; with a
command in flight it is refused. -/
def Obligations.CmdWriteLatchesTheCommand : Prop :=
  ∀ (s : State) (v : Word),
    (s.pend = none → hostAccess (.write 0x0018 8 v) s =
      .next { s with done := false, err := false, errcode := 0, pend := some { cmd := v, rtHost := s.rtHost } }) ∧
      (s.pend ≠ none → ∃ c, hostAccess (.write 0x0018 8 v) s = .fault (.busError c 0x0018))

/-- R68: while a command is in flight exactly the listed accesses are accepted; every other one gets a bus error. -/
def Obligations.BusyEngineAcceptsOnlyControlAndStatus : Prop :=
  ∀ (s : State) (a : Access), s.pend ≠ none →
    (a.AllowedWhileBusy → ∃ t, hostAccess a s = .next t) ∧
      (¬ a.AllowedWhileBusy → ∃ c, hostAccess a s = .fault (.busError c a.off))

/-- R61, R62, R64: an access gets a bus error exactly when one of the four causes holds. -/
def Obligations.AccessRefusedExactlyForTheFourCauses : Prop :=
  ∀ (s : State) (a : Access),
    (∃ c, hostAccess a s = .fault (.busError c a.off)) ↔
      (a.width ≠ 8 ∨ a.off.toNat % 8 ≠ 0) ∨ ¬ MappedOffset s.params a.off.toNat ∨
        (a.isWrite = true ∧ a.off.toNat ∈ [0x0000, 0x0048, 0x0050, 0x0058]) ∨
        (s.pend ≠ none ∧ ¬ a.AllowedWhileBusy)

/-- R65: a read changes no state of the engine, only what the host has received, and the same read again returns the same
value; `CMD` reads 0. A read of a poisoned element gives no next state. -/
def Obligations.ReadsHaveNoSideEffect : Prop :=
  ∀ s : State,
    (∀ (off : Offset) (w : Nat) (t : State), hostAccess (.read off w) s = .next t →
      ∃ v, t = { s with port := { s.port with received := s.port.received ++ [v] } } ∧
        hostAccess (.read off w) t = .next { t with port := { t.port with received := t.port.received ++ [v] } }) ∧
      (s.pend = none → hostAccess (.read 0x0018 8) s =
        .next { s with port := { s.port with received := s.port.received ++ [0] } })

/-- R20, R34, R35, R65: what a host read returns on an idle engine: each 64-bit register, every `RTAB` entry and every
written `DATA` element its own value. A read of a poisoned element faults, as R41 asks of a model. -/
def Obligations.IdleReadsReturnTheHeldValueOrFaultWhenPoisoned : Prop :=
  ∀ s : State, s.params.wf = true → s.pend = none →
    let returns := fun (off : Nat) (v : Word) =>
      hostAccess (.read (BitVec.ofNat 16 off) 8) s =
        .next { s with port := { s.port with received := s.port.received ++ [v] } }
    returns 0x0020 s.mod ∧ returns 0x0028 s.root ∧ returns 0x0030 s.len ∧ returns 0x0038 s.opa ∧ returns 0x0040 s.opb ∧
      returns 0x0048 s.result ∧ returns 0x0050 s.mctxMod ∧ returns 0x0058 s.mctxInv ∧
      (∀ m < s.params.lmax, returns (0x0100 + 8 * m) (s.rtab.getD m 0)) ∧
      ∀ i < 2 ^ s.params.lmax,
        (∀ v, s.data.read i = some v → returns (0x8000 + 8 * i) v) ∧
          (s.data.read i = none →
            hostAccess (.read (BitVec.ofNat 16 (0x8000 + 8 * i)) 8) s = .fault (.poisonedRead i))

/-- R66, R69: on an idle engine a write of a register, `RTAB` entry or `DATA` element that only stores is accepted, a read
of the offset then returns the written value, and nothing else changes: every byte of the space outside the eight written
ones reads as before, and so does what no access reaches. -/
def Obligations.StoringWriteIsReadBackAndChangesNothingElse : Prop :=
  ∀ (s : State) (off : Offset) (v : Word), s.params.wf = true → s.rtab.length = s.params.lmax → s.pend = none →
    StorageOffset s.params off.toNat →
    ∃ t, hostAccess (.write off 8 v) s = .next t ∧
      hostAccess (.read off 8) t = .next { t with port := { t.port with received := t.port.received ++ [v] } } ∧
      (∀ b, b < off.toNat ∨ off.toNat + 8 ≤ b → t.byteAt b = s.byteAt b) ∧
      t.params = s.params ∧ t.scratch = s.scratch ∧ t.pend = s.pend ∧ t.port = s.port

/-- R26: a `STATUS` write clears the W1C bits it names and nothing else, in flight or not; in flight it has no effect. -/
def Obligations.StatusWriteClearsTheNamedBits : Prop :=
  ∀ (s : State) (v : Word),
    hostAccess (.write 0x0010 8 v) s =
        .next { s with
          done := if v.getLsbD 1 then false else s.done
          err := if v.getLsbD 2 then false else s.err
          errcode := if v.getLsbD 2 then 0 else s.errcode } ∧
      (s.Wf → s.pend ≠ none → hostAccess (.write 0x0010 8 v) s = .next s)

/-- R23, R24: a `CTRL` write with bit 0 clear sets `IRQ_EN` and `RT_HOST` and nothing else, in flight or not, and a read
then returns those two bits with every other bit 0. -/
def Obligations.CtrlWriteSetsItsTwoFields : Prop :=
  ∀ (s : State) (v : Word), v.getLsbD 0 = false →
    let t : State := { s with irqEn := v.getLsbD 1, rtHost := v.getLsbD 2 }
    hostAccess (.write 0x0008 8 v) s = .next t ∧
      hostAccess (.read 0x0008 8) t = .next { t with port := { t.port with received := t.port.received ++ [v &&& 6] } }

/-- R24, R271, R272: a `CTRL` write with bit 0 set is a soft reset. `DATA` is poisoned whole when the command in flight
has a transform opcode in bits 7:0, and unchanged otherwise. -/
def Obligations.SoftResetClearsAndAborts : Prop :=
  ∀ (s : State) (v : Word), v.getLsbD 0 = true →
    ∃ t, hostAccess (.write 0x0008 8 v) s = .next t ∧
      t.ctrlWord = 0 ∧ t.statusWord = 0 ∧ t.irq = false ∧ t.mod = 0 ∧ t.root = 0 ∧ t.len = 0 ∧ t.opa = 0 ∧ t.opb = 0 ∧
      t.result = 0 ∧ t.mctxMod = 0 ∧ t.mctxInv = 0 ∧ t.rtab = List.replicate s.params.lmax 0 ∧ t.pend = none ∧
      t.params = s.params ∧ t.port = s.port ∧ (∀ i, t.scratch.read i = none) ∧
      (s.pend = none → t.data = s.data) ∧
      ∀ p, s.pend = some p →
        (p.cmd.toNat % 256 ∈ [1, 2, 3, 4] → ∀ i, t.data.read i = none) ∧
          (p.cmd.toNat % 256 ∉ [1, 2, 3, 4] → t.data = s.data)

/-- R25: what a host read of `STATUS` returns, field by field, in flight or not. -/
def Obligations.StatusReadsItsFields : Prop :=
  ∀ s : State, ∃ w : Word,
    hostAccess (.read 0x0010 8) s = .next { s with port := { s.port with received := s.port.received ++ [w] } } ∧
      w.getLsbD 0 = s.pend.isSome ∧ w.getLsbD 1 = s.done ∧ w.getLsbD 2 = s.err ∧ w.getLsbD 3 = s.mctxValid ∧
      (∀ k, 4 ≤ k → k ≤ 7 → w.getLsbD k = false) ∧ w.extractLsb' 8 8 = s.errcode ∧ ∀ k, 16 ≤ k → w.getLsbD k = false

/-- R22: what a host read of `ID` returns, field by field; a write is refused. -/
def Obligations.IdReadsTheParameters : Prop :=
  ∀ s : State, s.params.wf = true →
    (∃ w : Word,
      hostAccess (.read 0x0000 8) s = .next { s with port := { s.port with received := s.port.received ++ [w] } } ∧
        w.toNat / 2 ^ 32 = 0x45525958 ∧ w.toNat / 2 ^ 16 % 2 ^ 16 = 7 ∧ w.toNat / 2 ^ 8 % 2 ^ 8 = s.params.lmax ∧
        w.toNat / 2 ^ 4 % 2 ^ 4 = 0 ∧ w.getLsbD 3 = s.params.hasModexp ∧ w.toNat % 8 = 7 ∧
        (s.params = { lmax := 10, hasModexp := true } → w = 0x4552595800070A0F#64)) ∧
      ∀ v, ∃ c, hostAccess (.write 0x0000 8 v) s = .fault (.busError c 0x0000)

/-- R248: `irq` is `IRQ_EN ∧ DONE`. The completion of any command, successful or failed, raises it when `IRQ_EN = 1`;
acceptance, a W1C write of `DONE`, a write of `IRQ_EN = 0` and either reset lower it. A bus error has no next state. -/
def Obligations.InterruptFollowsEnableAndDone : Prop :=
  ∀ s : State, s.irq = (s.irqEn && s.done) ∧
    (s.pend ≠ none → ∃ t, engineStep s = .next t ∧ t.irq = s.irqEn) ∧
    (∀ v t, hostAccess (.write 0x0018 8 v) s = .next t → t.irq = false) ∧
    (∀ v t, v.getLsbD 1 = true → hostAccess (.write 0x0010 8 v) s = .next t → t.irq = false) ∧
    (∀ v t, v.getLsbD 1 = false ∨ v.getLsbD 0 = true → hostAccess (.write 0x0008 8 v) s = .next t → t.irq = false) ∧
    s.powerOn.irq = false

/-! ## What commands leave unchanged -/

/-- R39: a command writes only the state the table lists for it. -/
def Obligations.CommandWritesOnlyWhatTheTableLists : Prop :=
  ∀ (i : Instr) (s t : State), exec i s = .next t →
    t.params = s.params ∧ t.irqEn = s.irqEn ∧ t.rtHost = s.rtHost ∧ t.mod = s.mod ∧ t.root = s.root ∧ t.len = s.len ∧
      t.opa = s.opa ∧ t.opb = s.opb ∧ t.rtab = s.rtab ∧ t.port = s.port ∧
      (i ∉ [Instr.montTo, .montMul, .montFrom, .modexp, .rootchk] → t.result = s.result) ∧
      (i ≠ .montSetup → t.mctxMod = s.mctxMod ∧ t.mctxInv = s.mctxInv ∧ t.mctxValid = s.mctxValid) ∧
      (i ∉ [Instr.nttFwdIter, .nttInvIter, .nttFwdRec, .nttInvRec] → t.data = s.data ∧ t.scratch = s.scratch) ∧
      (∀ k, s.len.toNat ≤ k → t.data.read k = s.data.read k)

/-- R39, R63: the same in bytes. Every byte of the register space reads as before a command but those of `STATUS`, of
`RESULT` for the scalar commands, of the context for `MONT_SETUP`, and of `DATA[0 ..< LEN]` for the transforms. -/
def Obligations.CommandChangesOnlyItsBytes : Prop :=
  ∀ (i : Instr) (s t : State) (b : Nat), exec i s = .next t →
    ¬ (0x0010 ≤ b ∧ b < 0x0018) →
    (i ∈ [Instr.montTo, .montMul, .montFrom, .modexp, .rootchk] → ¬ (0x0048 ≤ b ∧ b < 0x0050)) →
    (i = .montSetup → ¬ (0x0050 ≤ b ∧ b < 0x0060)) →
    (i ∈ [Instr.nttFwdIter, .nttInvIter, .nttFwdRec, .nttInvRec] →
      ¬ (0x8000 ≤ b ∧ b < 0x8000 + 8 * s.len.toNat)) →
    t.byteAt b = s.byteAt b

/-- R245: a command that fails changes only `DONE`, `ERR`, `ERRCODE` and `PEND`, whether the decoder or a check of the
command's own fails it. -/
def Obligations.FailedCommandWritesOnlyStatus : Prop :=
  ∀ s t : State, s.err = false → t.err = true →
    ((∃ i, exec i s = .next t) ∨ (s.pend ≠ none ∧ engineStep s = .next t)) →
    t = { s with done := true, err := true, errcode := t.errcode, pend := none }

/-- R115 to R117, R145, R246: the errors of the four transforms, the first failing check reported. -/
def Obligations.TransformErrorsInPriorityOrder : Prop :=
  ∀ (s : State) (p : Pending), s.pend = some p →
    ∀ i ∈ [Instr.nttFwdIter, .nttInvIter, .nttFwdRec, .nttInvRec],
      (¬ s.ModulusOk → exec i s = .next (s.withError 4)) ∧
      (s.ModulusOk → ¬ ((∃ L, s.len.toNat = 2 ^ L) ∧ s.len.toNat ≤ 2 ^ s.params.lmax) →
        exec i s = .next (s.withError 5)) ∧
      (s.ModulusOk → (∃ L, s.len.toNat = 2 ^ L) → s.len.toNat ≤ 2 ^ s.params.lmax → s.mod.toNat ≤ s.root.toNat →
        exec i s = .next (s.withError 6)) ∧
      (∀ L, i = .nttFwdRec ∨ i = .nttInvRec → p.rtHost = true → s.TransformReady L → ¬ s.LevelRootsReady L →
        exec i s = .next (s.withError 6))

/-- R115, R200, R201, R246: the errors of `MONT_SETUP`, `MODEXP` and `ROOTCHK` with the unit present. `ROOTCHK` has no
`NMAX` bound. -/
def Obligations.ScalarOperandErrorsInPriorityOrder : Prop :=
  ∀ s : State,
    (¬ s.ModulusOk → exec .montSetup s = .next (s.withError 4)) ∧
      (s.params.hasModexp = true →
        (¬ s.ModulusOk → exec .modexp s = .next (s.withError 4) ∧ exec .rootchk s = .next (s.withError 4)) ∧
          (s.ModulusOk → (¬ ∃ L, s.len.toNat = 2 ^ L) → exec .rootchk s = .next (s.withError 5)) ∧
          (s.ModulusOk → (∃ L, s.len.toNat = 2 ^ L) → s.mod.toNat ≤ s.root.toNat →
            exec .rootchk s = .next (s.withError 6)))

/-- R183 to R185: without a context the three Montgomery commands that use one complete with `NO_CONTEXT`. -/
def Obligations.MontgomeryWithoutContextFails : Prop :=
  ∀ s : State, s.mctxValid = false →
    ∀ i ∈ [Instr.montTo, .montMul, .montFrom], exec i s = .next (s.withError 7)

/-! ## Results of the scalar commands -/

/-- R121: `NOP` completes and does nothing else. -/
def Obligations.NopOnlyCompletes : Prop :=
  ∀ s : State, exec .nop s = .next { s with done := true, pend := none }

/-- R181, R182: `MONT_SETUP` builds the context from `MOD`; `MCTX_INV` is the unique inverse of the modulus. -/
def Obligations.MontSetupBuildsTheInverse : Prop :=
  ∀ s : State, s.ModulusOk → ∃ inv : Word,
    exec .montSetup s =
        .next { s with mctxMod := s.mod, mctxInv := inv, mctxValid := true, done := true, pend := none } ∧
      ∀ x : Word, (s.mod.toNat * x.toNat) % 2 ^ 64 = 1 ↔ x = inv

/-- R183: `MONT_TO` gives `OPA · 2^64 mod MCTX_MOD`. -/
def Obligations.MontToMultipliesByTheRadix : Prop :=
  ∀ s : State, s.mctxValid = true → 3 ≤ s.mctxMod.toNat → ∃ r : Word,
    exec .montTo s = .next { s with result := r, done := true, pend := none } ∧
      r.toNat = (2 ^ 64 * s.opa.toNat) % s.mctxMod.toNat

/-- R180, R184: `MONT_MUL` gives the signed-subtract reduction exactly, for every pair of operands; the value always fits
`RESULT` (R186). -/
def Obligations.MontMulIsTheSignedReduction : Prop :=
  ∀ s : State, s.Wf → s.mctxValid = true → ∃ r : Word,
    exec .montMul s = .next { s with result := r, done := true, pend := none } ∧
      let t := s.opa.toNat * s.opb.toNat
      let q := t % 2 ^ 64 * s.mctxInv.toNat % 2 ^ 64
      let d : Int := (t / 2 ^ 64 : Nat) - (q * s.mctxMod.toNat / 2 ^ 64 : Nat)
      (r.toNat : Int) = if d < 0 then d + s.mctxMod.toNat else d

/-- R186: that value is congruent to `a · b · R⁻¹`, and below the modulus when either operand is. -/
def Obligations.MontMulIsTheMontgomeryProduct : Prop :=
  ∀ s : State, s.Wf → s.mctxValid = true → ∃ t : State, exec .montMul s = .next t ∧
    (t.result.toNat * 2 ^ 64) % s.mctxMod.toNat = (s.opa.toNat * s.opb.toNat) % s.mctxMod.toNat ∧
      (s.opa.toNat < s.mctxMod.toNat ∨ s.opb.toNat < s.mctxMod.toNat → t.result.toNat < s.mctxMod.toNat)

/-- R185: `MONT_FROM` gives `OPA · R⁻¹ mod MCTX_MOD`, for every operand. -/
def Obligations.MontFromDividesByTheRadix : Prop :=
  ∀ s : State, s.Wf → s.mctxValid = true → ∃ r : Word,
    exec .montFrom s = .next { s with result := r, done := true, pend := none } ∧
      r.toNat < s.mctxMod.toNat ∧ (r.toNat * 2 ^ 64) % s.mctxMod.toNat = s.opa.toNat % s.mctxMod.toNat

/-- R186: Montgomery correctness, run on the machine. Both operands into the form, multiplied, and out again give
`a · b mod m`, for every pair of 64-bit operands. -/
def Obligations.MontgomeryRoundTripIsModularProduct : Prop :=
  ∀ (s : State) (a b : Word), s.Wf → s.mctxValid = true → ∃ s1 s2 s3 s4 : State,
    exec .montTo { s with opa := a } = .next s1 ∧
      exec .montTo { s1 with opa := b } = .next s2 ∧
      exec .montMul { s2 with opa := s1.result, opb := s2.result } = .next s3 ∧
      exec .montFrom { s3 with opa := s3.result } = .next s4 ∧
      s4.result.toNat = (a.toNat * b.toNat) % s.mctxMod.toNat

/-- R187, R277: the context is not tied to `MOD`: what the three commands that use it compute does not depend on `MOD`.
No transform depends on the context. -/
def Obligations.ContextAndModulusAreIndependent : Prop :=
  ∀ s t : State,
    (∀ i ∈ [Instr.montTo, .montMul, .montFrom], ∀ v : Word,
      exec i s = .next t → exec i { s with mod := v } = .next { t with mod := v }) ∧
      (∀ i ∈ [Instr.nttFwdIter, .nttInvIter, .nttFwdRec, .nttInvRec], ∀ (m n : Word) (b : Bool),
        exec i s = .next t → exec i { s with mctxMod := m, mctxInv := n, mctxValid := b } =
          .next { t with mctxMod := m, mctxInv := n, mctxValid := b })

/-- R7, R200: `MODEXP` gives `OPA ^ OPB mod MOD`, with `a ^ 0 = 1`. -/
def Obligations.ModexpIsTheModularPower : Prop :=
  ∀ s : State, s.params.hasModexp = true → s.ModulusOk → ∃ r : Word,
    exec .modexp s = .next { s with result := r, done := true, pend := none } ∧
      r.toNat = s.opa.toNat ^ s.opb.toNat % s.mod.toNat

/-- R201: `ROOTCHK` gives 1 exactly when `ROOT` has multiplicative order `LEN` modulo `MOD`, and 0 otherwise, for every
power of two `LEN`, above `NMAX` too. -/
def Obligations.RootchkDecidesTheOrder : Prop :=
  ∀ (s : State) (L : Nat), s.params.hasModexp = true → s.ModulusOk → s.len.toNat = 2 ^ L → s.root.toNat < s.mod.toNat →
    ∃ r : Word, exec .rootchk s = .next { s with result := r, done := true, pend := none } ∧
      (orderOf (s.root.toNat : ZMod s.mod.toNat) = 2 ^ L → r = 1) ∧
      (orderOf (s.root.toNat : ZMod s.mod.toNat) ≠ 2 ^ L → r = 0)

/-! ## Results of the transforms -/

/-- R119, R164, R165: the iterative transforms complete and write their output, with `w⁻¹ = w^(n-1)` and
`n⁻¹ = ((N+1)/2)^L` for the inverse (R112 to R114). -/
def Obligations.IterativeTransformsWriteTheirOutput : Prop :=
  ∀ (s : State) (L : Nat), s.TransformReady L → s.InputWritten →
    let x := s.sequence (2 ^ L)
    let N := s.mod.toNat
    let w := s.root.toNat
    (∃ t, exec .nttFwdIter s = .next t ∧ TransformDone s t ∧
      HoldsOutput s t (if L = 0 then x.map (· % N) else iterCore x N w)) ∧
    (∃ t, exec .nttInvIter s = .next t ∧ TransformDone s t ∧
      HoldsOutput s t ((iterCore x N (w ^ (2 ^ L - 1) % N)).map fun v => v * (((N + 1) / 2) ^ L % N) % N))

/-- R119, R141 to R144: the recursive transforms complete and write their output, with the level roots of the latched
`RT_HOST`. -/
def Obligations.RecursiveTransformsWriteTheirOutput : Prop :=
  ∀ (s : State) (p : Pending) (L : Nat), s.pend = some p → s.TransformReady L → s.InputWritten →
    (p.rtHost = true → s.LevelRootsReady L) →
    let x := s.sequence (2 ^ L)
    let N := s.mod.toNat
    let w := s.root.toNat
    let winv := w ^ (2 ^ L - 1) % N
    let e := fun m => (s.rtab.getD m 0).toNat
    (∃ t, exec .nttFwdRec s = .next t ∧ TransformDone s t ∧
      HoldsOutput s t (if L = 0 then x.map (· % N) else
        recCore N (fun m => if m = L then w else if p.rtHost then e m else w ^ 2 ^ (L - m) % N) L x)) ∧
    (∃ t, exec .nttInvRec s = .next t ∧ TransformDone s t ∧
      HoldsOutput s t ((recCore N (fun m => if m = L then winv else if p.rtHost then e m ^ (2 ^ m - 1) % N else
        winv ^ 2 ^ (L - m) % N) L x).map fun v => v * (((N + 1) / 2) ^ L % N) % N))

/-- R160: `ITER_CORE` runs the stages `ns = 1, 2, 4, ...`, and each stage writes, for every `j`, the butterfly of
`a[j]` and `a[j + n/2]` to `d` and `d + ns`, with the exact twiddle index of R161; from length 2 on every element is reduced. -/
def Obligations.IterativeStagesAreTheButterflyNetwork : Prop :=
  ∀ (N r L : Nat), 0 < N →
    (∀ x : List Nat, x.length = 2 ^ L →
      iterCore x N r = (List.range L).foldl (fun a k => iterStage N r (2 ^ L) (2 ^ k) a) x ∧
        (1 ≤ L → ∀ v ∈ iterCore x N r, v < N)) ∧
    ∀ (a : List Nat) (k j : Nat), a.length = 2 ^ L → k < L → j < 2 ^ L / 2 →
      let ns := 2 ^ k
      let v1 := r ^ (j % ns * (2 ^ L / (ns * 2))) % N * a.getD (j + 2 ^ L / 2) 0 % N
      let d := j / ns * ns * 2 + j % ns
      let b := iterStage N r (2 ^ L) ns a
      b.length = 2 ^ L ∧ b[d]? = some ((a.getD j 0 + v1) % N) ∧
        b[d + ns]? = some (((a.getD j 0 : Int) - v1) % N).toNat

/-- R140: `REC_CORE` transforms the even and the odd half and combines them with the root of its level; length 1 is
returned unchanged. -/
def Obligations.RecursiveCoreCombinesEvenAndOddHalves : Prop :=
  ∀ (N m : Nat) (root : Nat → Nat) (x : List Nat), 0 < N →
    (x.length = 1 → recCore N root 0 x = x) ∧
    (x.length = 2 ^ (m + 1) →
      let X := recCore N root (m + 1) x
      let E := recCore N root m ((List.range (2 ^ m)).map fun k => x.getD (2 * k) 0)
      let O := recCore N root m ((List.range (2 ^ m)).map fun k => x.getD (2 * k + 1) 0)
      X.length = 2 ^ (m + 1) ∧ (∀ v ∈ X, v < N) ∧
        ∀ k < 2 ^ m,
          let q := root (m + 1) ^ k % N * O.getD k 0 % N
          X[k]? = some ((E.getD k 0 + q) % N) ∧
            X[k + 2 ^ m]? = some (((E.getD k 0 : Int) - q) % N).toNat)

/-- R112, R113: `rinv` is `r^(n-1)`, the inverse of every root whose order divides the length, for every modulus; `ninv` is
`((N+1)/2)^L`, the one inverse of the length below an odd modulus. -/
def Obligations.RootAndLengthInversesAreInverses : Prop :=
  (∀ r n N : Nat, 1 ≤ n → 1 ≤ N →
    rinv r n N = r ^ (n - 1) % N ∧ (r ^ n % N = 1 → (r * rinv r n N) % N = 1) ∧ rinv r 1 N = 1 % N) ∧
  ∀ L N : Nat, N % 2 = 1 → 3 ≤ N →
    ninv (2 ^ L) N = ((N + 1) / 2) ^ L % N ∧ ninv 1 N = 1 ∧ ∀ y < N, (2 ^ L * y) % N = 1 ↔ y = ninv (2 ^ L) N

/-- R120: at length 1 each of the four transforms writes `DATA[0] mod MOD`. -/
def Obligations.LengthOneTransformReduces : Prop :=
  ∀ (s : State) (v : Word), s.TransformReady 0 → s.data.read 0 = some v →
    ∀ i ∈ [Instr.nttFwdIter, .nttInvIter, .nttFwdRec, .nttInvRec],
      ∃ t, exec i s = .next t ∧ TransformDone s t ∧ HoldsOutput s t [v.toNat % s.mod.toNat]

/-- R41: a transform with a poisoned input element completes and poisons all of `DATA[0 ..< LEN]`, no other element. -/
def Obligations.PoisonedInputPoisonsTheOutput : Prop :=
  ∀ (s : State) (L : Nat), s.TransformReady L → ¬ s.InputWritten →
    ∀ i ∈ [Instr.nttFwdIter, .nttInvIter, .nttFwdRec, .nttInvRec], s.HostRootsMeet i (s.LevelRootsReady L) →
      ∃ t, exec i s = .next t ∧ TransformDone s t ∧
        ∀ k, t.data.read k = if k < 2 ^ L then none else s.data.read k

/-- R35, R119: a successful transform of written input leaves every `DATA[k]`, `k < LEN`, below `MOD`. -/
def Obligations.TransformOutputsAreReduced : Prop :=
  ∀ (s t : State), ∀ i ∈ [Instr.nttFwdIter, .nttInvIter, .nttFwdRec, .nttInvRec],
    s.InputWritten → s.err = false → exec i s = .next t → t.err = false →
    ∀ k < s.len.toNat, ∃ v, t.data.read k = some v ∧ v.toNat < s.mod.toNat

/-- R146, R167: with `RT_HOST = 0` the iterative and the recursive transforms are the same command, from every state: any
modulus, length, root and input, failing operands and poisoned input among them. -/
def Obligations.IterativeEqualsRecursive : Prop :=
  ∀ (s : State) (p : Pending), s.pend = some p → p.rtHost = false →
    exec .nttFwdIter s = exec .nttFwdRec s ∧ exec .nttInvIter s = exec .nttInvRec s

/-- R125: with a prime modulus and a root of order `n`, both forward transforms give the number-theoretic transform
`X[k] = Σ_j x[j] · w^(jk) mod N` in natural order, which is `NAIVE_FWD` (R118); the recursive one with `RT_HOST = 0` or chained
level roots, the iterative one whatever `RT_HOST` and `RTAB` hold. -/
def Obligations.ForwardTransformsAreTheNumberTheoreticTransform : Prop :=
  ∀ (s : State) (L : Nat), s.TransformReady L → s.InputWritten →
    s.mod.toNat.Prime → orderOf (s.root.toNat : ZMod s.mod.toNat) = 2 ^ L →
    let X := (List.range (2 ^ L)).map fun k =>
      (∑ j ∈ Finset.range (2 ^ L), s.dataNat j * s.root.toNat ^ (j * k)) % s.mod.toNat
    naiveFwd (s.sequence (2 ^ L)) s.mod.toNat s.root.toNat = X ∧
      ∀ i ∈ [Instr.nttFwdIter, .nttFwdRec], s.HostRootsMeet i (s.LevelRootsChained L) →
        ∃ t, exec i s = .next t ∧ TransformDone s t ∧ HoldsOutput s t X

/-- R118: `NAIVE_INV` is defined exactly when the root and the length have inverses modulo `N`. Under the hypotheses of R125
both inverse transforms compute it. -/
def Obligations.InverseTransformsAreTheNaiveInverse : Prop :=
  (∀ (X : List Nat) (N w : Nat), 1 ≤ N →
    ((naiveInv X N w).isSome = true ↔ (∃ y, w * y % N = 1 % N) ∧ ∃ y, X.length * y % N = 1 % N)) ∧
  ∀ (s : State) (L : Nat), s.TransformReady L → s.InputWritten →
    s.mod.toNat.Prime → orderOf (s.root.toNat : ZMod s.mod.toNat) = 2 ^ L →
    ∃ y, naiveInv (s.sequence (2 ^ L)) s.mod.toNat s.root.toNat = some y ∧
      ∀ i ∈ [Instr.nttInvIter, .nttInvRec], s.HostRootsMeet i (s.LevelRootsChained L) →
        ∃ t, exec i s = .next t ∧ TransformDone s t ∧ HoldsOutput s t y

/-- R125: under the same hypotheses a forward transform followed by its inverse gives back the input reduced modulo `N`. -/
def Obligations.InverseTransformsUndoForward : Prop :=
  ∀ (s : State) (L : Nat), s.TransformReady L → s.InputWritten →
    s.mod.toNat.Prime → orderOf (s.root.toNat : ZMod s.mod.toNat) = 2 ^ L →
    ∀ c ∈ [(Instr.nttFwdIter, Instr.nttInvIter), (.nttFwdRec, .nttInvRec)],
      s.HostRootsMeet c.1 (s.LevelRootsChained L) → ∃ t u,
        exec c.1 s = .next t ∧ exec c.2 { t with pend := s.pend } = .next u ∧
          HoldsOutput s u ((s.sequence (2 ^ L)).map (· % s.mod.toNat))

/-- R125: both forward transforms are linear modulo `N`, for every root and every level root. -/
def Obligations.ForwardTransformsAreLinear : Prop :=
  ∀ (N w L : Nat) (root : Nat → Nat) (a b c : List Nat), 0 < N → a.length = 2 ^ L → b.length = 2 ^ L →
    c.length = 2 ^ L → (∀ i, c.getD i 0 = a.getD i 0 + b.getD i 0) →
    ∀ k < 2 ^ L,
      (fwdIter c N w).getD k 0 = ((fwdIter a N w).getD k 0 + (fwdIter b N w).getD k 0) % N ∧
        (fwdRec c N root).getD k 0 = ((fwdRec a N root).getD k 0 + (fwdRec b N root).getD k 0) % N

/-- R146: the value of `RTAB[1]` never changes an output; only its range check matters. -/
def Obligations.LevelOneRootNeverMatters : Prop :=
  ∀ (s t : State) (v : Word), (s.rtab.getD 1 0).toNat < s.mod.toNat → v.toNat < s.mod.toNat →
    ∀ i ∈ [Instr.nttFwdRec, .nttInvRec],
      exec i s = .next t → exec i { s with rtab := s.rtab.set 1 v } = .next { t with rtab := s.rtab.set 1 v }

/-- R24, R37, R278: a command in flight does not see a later change of `CTRL`: it completes as it would have, for every
command. -/
def Obligations.CommandInFlightIgnoresControlChanges : Prop :=
  ∀ (i : Instr) (s t : State) (p : Pending) (en rt : Bool), s.pend = some p → exec i s = .next t →
    exec i { s with irqEn := en, rtHost := rt } = .next { t with irqEn := en, rtHost := rt }

/-- R39, R35: a transform reads only the state the table lists: two states that agree on it, whatever `OPA`, `OPB`,
`RESULT`, the context, `SCRATCH` and `DATA` from `LEN` on hold, give the same output. For the iterative ones they need agree
neither on `RT_HOST` nor on `RTAB`; for the recursive ones on the latched `RT_HOST` and, when it is 1, on `RTAB[1 ..< L]`. -/
def Obligations.TransformReadsOnlyWhatTheTableLists : Prop :=
  ∀ (s s' t t' : State), s'.params = s.params → s'.mod = s.mod → s'.root = s.root → s'.len = s.len →
    (∀ k < s.len.toNat, s'.data.read k = s.data.read k) →
    ∀ i ∈ [Instr.nttFwdIter, .nttInvIter, .nttFwdRec, .nttInvRec],
      (i ∈ [Instr.nttFwdRec, .nttInvRec] → ∃ p p', s.pend = some p ∧ s'.pend = some p' ∧ p'.rtHost = p.rtHost ∧
        (p.rtHost = true → ∀ m, 1 ≤ m → 2 ^ m < s.len.toNat → s'.rtab.getD m 0 = s.rtab.getD m 0)) →
      exec i s = .next t → exec i s' = .next t' → ∀ k < s.len.toNat, t'.data.read k = t.data.read k
end

