-- ==== Sys2Proof/Laws/Arith.lean ====
section
/-! SUPPORT. What the arithmetic functions compute, in plain numbers: one lemma per function. -/

namespace Sys2Proof.Machine

theorem powModBits_eq (m fuel b e : Nat) (h : e < 2 ^ fuel) : powModBits m fuel b e = b ^ e % m := by
  induction fuel generalizing b e with
  | zero =>
    obtain rfl : e = 0 := by simpa using h
    simp [powModBits]
  | succ fuel ih =>
    have hhalf : e / 2 < 2 ^ fuel := by
      rw [pow_succ] at h
      omega
    have hsq : (b * b % m) ^ (e / 2) % m = b ^ (2 * (e / 2)) % m := by
      rw [← Nat.pow_mod, pow_mul, pow_two]
    have he := Nat.div_add_mod e 2
    simp only [powModBits, ih _ _ hhalf, hsq]
    split
    · rename_i hodd
      rw [Nat.mul_mod, Nat.mod_mod, ← Nat.mul_mod, ← pow_succ']
      congr 2
      omega
    · congr 2
      omega

/-- R7: `pow(a, e, m)` is `a^e mod m`. -/
theorem powMod_eq (a e m : Nat) : powMod a e m = a ^ e % m := by
  rw [powMod, powModBits_eq _ _ _ _ Nat.lt_log2_self, ← Nat.pow_mod]

theorem powMod_lt (a e : Nat) {m : Nat} (h : 0 < m) : powMod a e m < m := by
  rw [powMod_eq]
  exact Nat.mod_lt _ h

/-- R7: `ispow2(n)` holds exactly for the powers of two. -/
theorem isPow2_iff {n : Nat} : isPow2 n = true ↔ ∃ L, n = 2 ^ L := by
  constructor
  · intro h
    simp only [isPow2, Bool.and_eq_true, beq_iff_eq] at h
    exact ⟨n.log2, h.2.symm⟩
  · rintro ⟨L, rfl⟩
    simp [isPow2, Nat.log2_two_pow]

theorem addm_lt (a b : Nat) {N : Nat} (h : 0 < N) : addm a b N < N := Nat.mod_lt _ h

theorem mulm_lt (a b : Nat) {N : Nat} (h : 0 < N) : mulm a b N < N := Nat.mod_lt _ h

/-- R110: the difference, as an integer, modulo `N`. -/
theorem subm_cast (a b : Nat) {N : Nat} (h : 0 < N) : (subm a b N : Int) = ((a : Int) - b) % N := by
  rw [subm, Int.toNat_of_nonneg]
  exact Int.emod_nonneg _ (by omega)

theorem subm_lt (a b : Nat) {N : Nat} (h : 0 < N) : subm a b N < N := by
  have h1 := subm_cast a b h
  have h2 := Int.emod_lt_of_pos ((a : Int) - b) (show (0 : Int) < N by omega)
  omega

/-- In the integers modulo `N`, `addm` is the sum. -/
theorem addm_zmod (a b N : Nat) : (addm a b N : ZMod N) = a + b := by simp [addm]

/-- In the integers modulo `N`, `mulm` is the product. -/
theorem mulm_zmod (a b N : Nat) : (mulm a b N : ZMod N) = a * b := by simp [mulm]

/-- In the integers modulo `N`, `subm` is the difference. -/
theorem subm_zmod (a b : Nat) {N : Nat} (h : 0 < N) : (subm a b N : ZMod N) = a - b := by
  have h1 : ((subm a b N : Int) : ZMod N) = (((a : Int) - b) % N : Int) := by rw [subm_cast a b h]
  have h2 : ((((a : Int) - b) % (N : Int) : Int) : ZMod N) = (((a : Int) - b : Int) : ZMod N) :=
    (ZMod.intCast_eq_intCast_iff _ _ _).2 (Int.mod_modEq _ _)
  rw [h2] at h1
  push_cast at h1
  exact h1

/-- In the integers modulo `N`, `powMod` is the power. -/
theorem powMod_zmod (a e N : Nat) : (powMod a e N : ZMod N) = (a : ZMod N) ^ e := by simp [powMod_eq]

@[simp] theorem length_scale (y : List Nat) (f N : Nat) : (scale y f N).length = y.length := by simp [scale]

theorem modOk_iff {N : Nat} : modOk N = true ↔ N % 2 = 1 ∧ 3 ≤ N := by simp [modOk]

theorem lenOk_iff {p : Params} {n : Nat} : lenOk p n = true ↔ (∃ L, n = 2 ^ L) ∧ n ≤ p.nmax := by
  simp [lenOk, isPow2_iff]

theorem rootOk_iff {w N : Nat} : rootOk w N = true ↔ w < N := by simp [rootOk]

/-- R145: what the check of the level roots asks. -/
theorem rtabOk_iff {s : State} :
    s.rtabOk = true ↔ (s.latchedRtHost = true → ∀ m, 1 ≤ m → m < s.logLen → s.rtabEntry m < s.mod.toNat) := by
  simp only [State.rtabOk, Bool.or_eq_true, List.all_eq_true, List.mem_range, beq_iff_eq, decide_eq_true_eq,
    Bool.not_eq_true']
  constructor
  · rintro (h | h) ht m h1 h2
    · simp [h] at ht
    · exact (h m h2).resolve_left (by omega)
  · intro h
    cases ht : s.latchedRtHost
    · exact .inl rfl
    · exact .inr fun m hm => (Nat.eq_zero_or_pos m).imp_right fun h1 => h ht m h1 hm

end Sys2Proof.Machine
end

