-- ==== Sys2Proof/Laws/State.lean ====
section
/-! SUPPORT. What each named update of the state leaves in each field: one lemma per field per update. -/

namespace Sys2Proof.Machine

/-! ## Completing with an error -/

@[simp] theorem State.failed_params (s : State) (e : ErrCode) : (s.failed e).params = s.params := rfl
@[simp] theorem State.failed_irqEn (s : State) (e : ErrCode) : (s.failed e).irqEn = s.irqEn := rfl
@[simp] theorem State.failed_rtHost (s : State) (e : ErrCode) : (s.failed e).rtHost = s.rtHost := rfl
@[simp] theorem State.failed_done (s : State) (e : ErrCode) : (s.failed e).done = true := rfl
@[simp] theorem State.failed_err (s : State) (e : ErrCode) : (s.failed e).err = true := rfl
@[simp] theorem State.failed_mctxValid (s : State) (e : ErrCode) : (s.failed e).mctxValid = s.mctxValid := rfl
@[simp] theorem State.failed_errcode (s : State) (e : ErrCode) : (s.failed e).errcode = e.code := rfl
@[simp] theorem State.failed_mod (s : State) (e : ErrCode) : (s.failed e).mod = s.mod := rfl
@[simp] theorem State.failed_root (s : State) (e : ErrCode) : (s.failed e).root = s.root := rfl
@[simp] theorem State.failed_len (s : State) (e : ErrCode) : (s.failed e).len = s.len := rfl
@[simp] theorem State.failed_opa (s : State) (e : ErrCode) : (s.failed e).opa = s.opa := rfl
@[simp] theorem State.failed_opb (s : State) (e : ErrCode) : (s.failed e).opb = s.opb := rfl
@[simp] theorem State.failed_result (s : State) (e : ErrCode) : (s.failed e).result = s.result := rfl
@[simp] theorem State.failed_mctxMod (s : State) (e : ErrCode) : (s.failed e).mctxMod = s.mctxMod := rfl
@[simp] theorem State.failed_mctxInv (s : State) (e : ErrCode) : (s.failed e).mctxInv = s.mctxInv := rfl
@[simp] theorem State.failed_rtab (s : State) (e : ErrCode) : (s.failed e).rtab = s.rtab := rfl
@[simp] theorem State.failed_data (s : State) (e : ErrCode) : (s.failed e).data = s.data := rfl
@[simp] theorem State.failed_scratch (s : State) (e : ErrCode) : (s.failed e).scratch = s.scratch := rfl
@[simp] theorem State.failed_pend (s : State) (e : ErrCode) : (s.failed e).pend = none := rfl
@[simp] theorem State.failed_port (s : State) (e : ErrCode) : (s.failed e).port = s.port := rfl

/-! ## Completing with success -/

@[simp] theorem State.succeeded_params (s : State) : (s.succeeded).params = s.params := rfl
@[simp] theorem State.succeeded_irqEn (s : State) : (s.succeeded).irqEn = s.irqEn := rfl
@[simp] theorem State.succeeded_rtHost (s : State) : (s.succeeded).rtHost = s.rtHost := rfl
@[simp] theorem State.succeeded_done (s : State) : (s.succeeded).done = true := rfl
@[simp] theorem State.succeeded_err (s : State) : (s.succeeded).err = s.err := rfl
@[simp] theorem State.succeeded_mctxValid (s : State) : (s.succeeded).mctxValid = s.mctxValid := rfl
@[simp] theorem State.succeeded_errcode (s : State) : (s.succeeded).errcode = s.errcode := rfl
@[simp] theorem State.succeeded_mod (s : State) : (s.succeeded).mod = s.mod := rfl
@[simp] theorem State.succeeded_root (s : State) : (s.succeeded).root = s.root := rfl
@[simp] theorem State.succeeded_len (s : State) : (s.succeeded).len = s.len := rfl
@[simp] theorem State.succeeded_opa (s : State) : (s.succeeded).opa = s.opa := rfl
@[simp] theorem State.succeeded_opb (s : State) : (s.succeeded).opb = s.opb := rfl
@[simp] theorem State.succeeded_result (s : State) : (s.succeeded).result = s.result := rfl
@[simp] theorem State.succeeded_mctxMod (s : State) : (s.succeeded).mctxMod = s.mctxMod := rfl
@[simp] theorem State.succeeded_mctxInv (s : State) : (s.succeeded).mctxInv = s.mctxInv := rfl
@[simp] theorem State.succeeded_rtab (s : State) : (s.succeeded).rtab = s.rtab := rfl
@[simp] theorem State.succeeded_data (s : State) : (s.succeeded).data = s.data := rfl
@[simp] theorem State.succeeded_scratch (s : State) : (s.succeeded).scratch = s.scratch := rfl
@[simp] theorem State.succeeded_pend (s : State) : (s.succeeded).pend = none := rfl
@[simp] theorem State.succeeded_port (s : State) : (s.succeeded).port = s.port := rfl

/-! ## Accepting a command word -/

@[simp] theorem State.accept_params (s : State) (v : Word) : (s.accept v).params = s.params := rfl
@[simp] theorem State.accept_irqEn (s : State) (v : Word) : (s.accept v).irqEn = s.irqEn := rfl
@[simp] theorem State.accept_rtHost (s : State) (v : Word) : (s.accept v).rtHost = s.rtHost := rfl
@[simp] theorem State.accept_done (s : State) (v : Word) : (s.accept v).done = false := rfl
@[simp] theorem State.accept_err (s : State) (v : Word) : (s.accept v).err = false := rfl
@[simp] theorem State.accept_mctxValid (s : State) (v : Word) : (s.accept v).mctxValid = s.mctxValid := rfl
@[simp] theorem State.accept_errcode (s : State) (v : Word) : (s.accept v).errcode = 0 := rfl
@[simp] theorem State.accept_mod (s : State) (v : Word) : (s.accept v).mod = s.mod := rfl
@[simp] theorem State.accept_root (s : State) (v : Word) : (s.accept v).root = s.root := rfl
@[simp] theorem State.accept_len (s : State) (v : Word) : (s.accept v).len = s.len := rfl
@[simp] theorem State.accept_opa (s : State) (v : Word) : (s.accept v).opa = s.opa := rfl
@[simp] theorem State.accept_opb (s : State) (v : Word) : (s.accept v).opb = s.opb := rfl
@[simp] theorem State.accept_result (s : State) (v : Word) : (s.accept v).result = s.result := rfl
@[simp] theorem State.accept_mctxMod (s : State) (v : Word) : (s.accept v).mctxMod = s.mctxMod := rfl
@[simp] theorem State.accept_mctxInv (s : State) (v : Word) : (s.accept v).mctxInv = s.mctxInv := rfl
@[simp] theorem State.accept_rtab (s : State) (v : Word) : (s.accept v).rtab = s.rtab := rfl
@[simp] theorem State.accept_data (s : State) (v : Word) : (s.accept v).data = s.data := rfl
@[simp] theorem State.accept_scratch (s : State) (v : Word) : (s.accept v).scratch = s.scratch := rfl
@[simp] theorem State.accept_pend (s : State) (v : Word) : (s.accept v).pend = some { cmd := v, rtHost := s.rtHost } := rfl
@[simp] theorem State.accept_port (s : State) (v : Word) : (s.accept v).port = s.port := rfl

/-! ## Writing RESULT -/

@[simp] theorem State.setResult_params (s : State) (n : Nat) : (s.setResult n).params = s.params := rfl
@[simp] theorem State.setResult_irqEn (s : State) (n : Nat) : (s.setResult n).irqEn = s.irqEn := rfl
@[simp] theorem State.setResult_rtHost (s : State) (n : Nat) : (s.setResult n).rtHost = s.rtHost := rfl
@[simp] theorem State.setResult_done (s : State) (n : Nat) : (s.setResult n).done = s.done := rfl
@[simp] theorem State.setResult_err (s : State) (n : Nat) : (s.setResult n).err = s.err := rfl
@[simp] theorem State.setResult_mctxValid (s : State) (n : Nat) : (s.setResult n).mctxValid = s.mctxValid := rfl
@[simp] theorem State.setResult_errcode (s : State) (n : Nat) : (s.setResult n).errcode = s.errcode := rfl
@[simp] theorem State.setResult_mod (s : State) (n : Nat) : (s.setResult n).mod = s.mod := rfl
@[simp] theorem State.setResult_root (s : State) (n : Nat) : (s.setResult n).root = s.root := rfl
@[simp] theorem State.setResult_len (s : State) (n : Nat) : (s.setResult n).len = s.len := rfl
@[simp] theorem State.setResult_opa (s : State) (n : Nat) : (s.setResult n).opa = s.opa := rfl
@[simp] theorem State.setResult_opb (s : State) (n : Nat) : (s.setResult n).opb = s.opb := rfl
@[simp] theorem State.setResult_result (s : State) (n : Nat) : (s.setResult n).result = u64 n := rfl
@[simp] theorem State.setResult_mctxMod (s : State) (n : Nat) : (s.setResult n).mctxMod = s.mctxMod := rfl
@[simp] theorem State.setResult_mctxInv (s : State) (n : Nat) : (s.setResult n).mctxInv = s.mctxInv := rfl
@[simp] theorem State.setResult_rtab (s : State) (n : Nat) : (s.setResult n).rtab = s.rtab := rfl
@[simp] theorem State.setResult_data (s : State) (n : Nat) : (s.setResult n).data = s.data := rfl
@[simp] theorem State.setResult_scratch (s : State) (n : Nat) : (s.setResult n).scratch = s.scratch := rfl
@[simp] theorem State.setResult_pend (s : State) (n : Nat) : (s.setResult n).pend = s.pend := rfl
@[simp] theorem State.setResult_port (s : State) (n : Nat) : (s.setResult n).port = s.port := rfl

/-! ## Building the Montgomery context -/

@[simp] theorem State.setContext_params (s : State) (m i : Word) : (s.setContext m i).params = s.params := rfl
@[simp] theorem State.setContext_irqEn (s : State) (m i : Word) : (s.setContext m i).irqEn = s.irqEn := rfl
@[simp] theorem State.setContext_rtHost (s : State) (m i : Word) : (s.setContext m i).rtHost = s.rtHost := rfl
@[simp] theorem State.setContext_done (s : State) (m i : Word) : (s.setContext m i).done = s.done := rfl
@[simp] theorem State.setContext_err (s : State) (m i : Word) : (s.setContext m i).err = s.err := rfl
@[simp] theorem State.setContext_mctxValid (s : State) (m i : Word) : (s.setContext m i).mctxValid = true := rfl
@[simp] theorem State.setContext_errcode (s : State) (m i : Word) : (s.setContext m i).errcode = s.errcode := rfl
@[simp] theorem State.setContext_mod (s : State) (m i : Word) : (s.setContext m i).mod = s.mod := rfl
@[simp] theorem State.setContext_root (s : State) (m i : Word) : (s.setContext m i).root = s.root := rfl
@[simp] theorem State.setContext_len (s : State) (m i : Word) : (s.setContext m i).len = s.len := rfl
@[simp] theorem State.setContext_opa (s : State) (m i : Word) : (s.setContext m i).opa = s.opa := rfl
@[simp] theorem State.setContext_opb (s : State) (m i : Word) : (s.setContext m i).opb = s.opb := rfl
@[simp] theorem State.setContext_result (s : State) (m i : Word) : (s.setContext m i).result = s.result := rfl
@[simp] theorem State.setContext_mctxMod (s : State) (m i : Word) : (s.setContext m i).mctxMod = m := rfl
@[simp] theorem State.setContext_mctxInv (s : State) (m i : Word) : (s.setContext m i).mctxInv = i := rfl
@[simp] theorem State.setContext_rtab (s : State) (m i : Word) : (s.setContext m i).rtab = s.rtab := rfl
@[simp] theorem State.setContext_data (s : State) (m i : Word) : (s.setContext m i).data = s.data := rfl
@[simp] theorem State.setContext_scratch (s : State) (m i : Word) : (s.setContext m i).scratch = s.scratch := rfl
@[simp] theorem State.setContext_pend (s : State) (m i : Word) : (s.setContext m i).pend = s.pend := rfl
@[simp] theorem State.setContext_port (s : State) (m i : Word) : (s.setContext m i).port = s.port := rfl

/-! ## A transform's output -/

@[simp] theorem State.setData_params (s : State) (d : Memory) : (s.setData d).params = s.params := rfl
@[simp] theorem State.setData_irqEn (s : State) (d : Memory) : (s.setData d).irqEn = s.irqEn := rfl
@[simp] theorem State.setData_rtHost (s : State) (d : Memory) : (s.setData d).rtHost = s.rtHost := rfl
@[simp] theorem State.setData_done (s : State) (d : Memory) : (s.setData d).done = s.done := rfl
@[simp] theorem State.setData_err (s : State) (d : Memory) : (s.setData d).err = s.err := rfl
@[simp] theorem State.setData_mctxValid (s : State) (d : Memory) : (s.setData d).mctxValid = s.mctxValid := rfl
@[simp] theorem State.setData_errcode (s : State) (d : Memory) : (s.setData d).errcode = s.errcode := rfl
@[simp] theorem State.setData_mod (s : State) (d : Memory) : (s.setData d).mod = s.mod := rfl
@[simp] theorem State.setData_root (s : State) (d : Memory) : (s.setData d).root = s.root := rfl
@[simp] theorem State.setData_len (s : State) (d : Memory) : (s.setData d).len = s.len := rfl
@[simp] theorem State.setData_opa (s : State) (d : Memory) : (s.setData d).opa = s.opa := rfl
@[simp] theorem State.setData_opb (s : State) (d : Memory) : (s.setData d).opb = s.opb := rfl
@[simp] theorem State.setData_result (s : State) (d : Memory) : (s.setData d).result = s.result := rfl
@[simp] theorem State.setData_mctxMod (s : State) (d : Memory) : (s.setData d).mctxMod = s.mctxMod := rfl
@[simp] theorem State.setData_mctxInv (s : State) (d : Memory) : (s.setData d).mctxInv = s.mctxInv := rfl
@[simp] theorem State.setData_rtab (s : State) (d : Memory) : (s.setData d).rtab = s.rtab := rfl
@[simp] theorem State.setData_data (s : State) (d : Memory) : (s.setData d).data = d := rfl
@[simp] theorem State.setData_scratch (s : State) (d : Memory) : (s.setData d).scratch = [] := rfl
@[simp] theorem State.setData_pend (s : State) (d : Memory) : (s.setData d).pend = s.pend := rfl
@[simp] theorem State.setData_port (s : State) (d : Memory) : (s.setData d).port = s.port := rfl

/-! ## A read's value reaching the host -/

@[simp] theorem State.receive_params (s : State) (v : Word) : (s.receive v).params = s.params := rfl
@[simp] theorem State.receive_irqEn (s : State) (v : Word) : (s.receive v).irqEn = s.irqEn := rfl
@[simp] theorem State.receive_rtHost (s : State) (v : Word) : (s.receive v).rtHost = s.rtHost := rfl
@[simp] theorem State.receive_done (s : State) (v : Word) : (s.receive v).done = s.done := rfl
@[simp] theorem State.receive_err (s : State) (v : Word) : (s.receive v).err = s.err := rfl
@[simp] theorem State.receive_mctxValid (s : State) (v : Word) : (s.receive v).mctxValid = s.mctxValid := rfl
@[simp] theorem State.receive_errcode (s : State) (v : Word) : (s.receive v).errcode = s.errcode := rfl
@[simp] theorem State.receive_mod (s : State) (v : Word) : (s.receive v).mod = s.mod := rfl
@[simp] theorem State.receive_root (s : State) (v : Word) : (s.receive v).root = s.root := rfl
@[simp] theorem State.receive_len (s : State) (v : Word) : (s.receive v).len = s.len := rfl
@[simp] theorem State.receive_opa (s : State) (v : Word) : (s.receive v).opa = s.opa := rfl
@[simp] theorem State.receive_opb (s : State) (v : Word) : (s.receive v).opb = s.opb := rfl
@[simp] theorem State.receive_result (s : State) (v : Word) : (s.receive v).result = s.result := rfl
@[simp] theorem State.receive_mctxMod (s : State) (v : Word) : (s.receive v).mctxMod = s.mctxMod := rfl
@[simp] theorem State.receive_mctxInv (s : State) (v : Word) : (s.receive v).mctxInv = s.mctxInv := rfl
@[simp] theorem State.receive_rtab (s : State) (v : Word) : (s.receive v).rtab = s.rtab := rfl
@[simp] theorem State.receive_data (s : State) (v : Word) : (s.receive v).data = s.data := rfl
@[simp] theorem State.receive_scratch (s : State) (v : Word) : (s.receive v).scratch = s.scratch := rfl
@[simp] theorem State.receive_pend (s : State) (v : Word) : (s.receive v).pend = s.pend := rfl
@[simp] theorem State.receive_port (s : State) (v : Word) : (s.receive v).port = { s.port with received := s.port.received ++ [v] } := rfl

/-! ## The host taking an event -/

@[simp] theorem State.tookEvent_params (s : State) (r : List HostEvent) : (s.tookEvent r).params = s.params := rfl
@[simp] theorem State.tookEvent_irqEn (s : State) (r : List HostEvent) : (s.tookEvent r).irqEn = s.irqEn := rfl
@[simp] theorem State.tookEvent_rtHost (s : State) (r : List HostEvent) : (s.tookEvent r).rtHost = s.rtHost := rfl
@[simp] theorem State.tookEvent_done (s : State) (r : List HostEvent) : (s.tookEvent r).done = s.done := rfl
@[simp] theorem State.tookEvent_err (s : State) (r : List HostEvent) : (s.tookEvent r).err = s.err := rfl
@[simp] theorem State.tookEvent_mctxValid (s : State) (r : List HostEvent) : (s.tookEvent r).mctxValid = s.mctxValid := rfl
@[simp] theorem State.tookEvent_errcode (s : State) (r : List HostEvent) : (s.tookEvent r).errcode = s.errcode := rfl
@[simp] theorem State.tookEvent_mod (s : State) (r : List HostEvent) : (s.tookEvent r).mod = s.mod := rfl
@[simp] theorem State.tookEvent_root (s : State) (r : List HostEvent) : (s.tookEvent r).root = s.root := rfl
@[simp] theorem State.tookEvent_len (s : State) (r : List HostEvent) : (s.tookEvent r).len = s.len := rfl
@[simp] theorem State.tookEvent_opa (s : State) (r : List HostEvent) : (s.tookEvent r).opa = s.opa := rfl
@[simp] theorem State.tookEvent_opb (s : State) (r : List HostEvent) : (s.tookEvent r).opb = s.opb := rfl
@[simp] theorem State.tookEvent_result (s : State) (r : List HostEvent) : (s.tookEvent r).result = s.result := rfl
@[simp] theorem State.tookEvent_mctxMod (s : State) (r : List HostEvent) : (s.tookEvent r).mctxMod = s.mctxMod := rfl
@[simp] theorem State.tookEvent_mctxInv (s : State) (r : List HostEvent) : (s.tookEvent r).mctxInv = s.mctxInv := rfl
@[simp] theorem State.tookEvent_rtab (s : State) (r : List HostEvent) : (s.tookEvent r).rtab = s.rtab := rfl
@[simp] theorem State.tookEvent_data (s : State) (r : List HostEvent) : (s.tookEvent r).data = s.data := rfl
@[simp] theorem State.tookEvent_scratch (s : State) (r : List HostEvent) : (s.tookEvent r).scratch = s.scratch := rfl
@[simp] theorem State.tookEvent_pend (s : State) (r : List HostEvent) : (s.tookEvent r).pend = s.pend := rfl
@[simp] theorem State.tookEvent_port (s : State) (r : List HostEvent) : (s.tookEvent r).port = { s.port with queue := r, turn := s.port.turn + 1 } := rfl

/-! ## A STATUS write -/

@[simp] theorem State.writeStatus_params (s : State) (v : Word) : (s.writeStatus v).params = s.params := rfl
@[simp] theorem State.writeStatus_irqEn (s : State) (v : Word) : (s.writeStatus v).irqEn = s.irqEn := rfl
@[simp] theorem State.writeStatus_rtHost (s : State) (v : Word) : (s.writeStatus v).rtHost = s.rtHost := rfl
@[simp] theorem State.writeStatus_done (s : State) (v : Word) : (s.writeStatus v).done = (s.done && !v.getLsbD 1) := rfl
@[simp] theorem State.writeStatus_err (s : State) (v : Word) : (s.writeStatus v).err = (s.err && !v.getLsbD 2) := rfl
@[simp] theorem State.writeStatus_mctxValid (s : State) (v : Word) : (s.writeStatus v).mctxValid = s.mctxValid := rfl
@[simp] theorem State.writeStatus_errcode (s : State) (v : Word) : (s.writeStatus v).errcode = if v.getLsbD 2 then 0 else s.errcode := rfl
@[simp] theorem State.writeStatus_mod (s : State) (v : Word) : (s.writeStatus v).mod = s.mod := rfl
@[simp] theorem State.writeStatus_root (s : State) (v : Word) : (s.writeStatus v).root = s.root := rfl
@[simp] theorem State.writeStatus_len (s : State) (v : Word) : (s.writeStatus v).len = s.len := rfl
@[simp] theorem State.writeStatus_opa (s : State) (v : Word) : (s.writeStatus v).opa = s.opa := rfl
@[simp] theorem State.writeStatus_opb (s : State) (v : Word) : (s.writeStatus v).opb = s.opb := rfl
@[simp] theorem State.writeStatus_result (s : State) (v : Word) : (s.writeStatus v).result = s.result := rfl
@[simp] theorem State.writeStatus_mctxMod (s : State) (v : Word) : (s.writeStatus v).mctxMod = s.mctxMod := rfl
@[simp] theorem State.writeStatus_mctxInv (s : State) (v : Word) : (s.writeStatus v).mctxInv = s.mctxInv := rfl
@[simp] theorem State.writeStatus_rtab (s : State) (v : Word) : (s.writeStatus v).rtab = s.rtab := rfl
@[simp] theorem State.writeStatus_data (s : State) (v : Word) : (s.writeStatus v).data = s.data := rfl
@[simp] theorem State.writeStatus_scratch (s : State) (v : Word) : (s.writeStatus v).scratch = s.scratch := rfl
@[simp] theorem State.writeStatus_pend (s : State) (v : Word) : (s.writeStatus v).pend = s.pend := rfl
@[simp] theorem State.writeStatus_port (s : State) (v : Word) : (s.writeStatus v).port = s.port := rfl

/-! ## A soft reset -/

@[simp] theorem State.softReset_params (s : State) : (s.softReset).params = s.params := rfl
@[simp] theorem State.softReset_irqEn (s : State) : (s.softReset).irqEn = false := rfl
@[simp] theorem State.softReset_rtHost (s : State) : (s.softReset).rtHost = false := rfl
@[simp] theorem State.softReset_done (s : State) : (s.softReset).done = false := rfl
@[simp] theorem State.softReset_err (s : State) : (s.softReset).err = false := rfl
@[simp] theorem State.softReset_mctxValid (s : State) : (s.softReset).mctxValid = false := rfl
@[simp] theorem State.softReset_errcode (s : State) : (s.softReset).errcode = 0 := rfl
@[simp] theorem State.softReset_mod (s : State) : (s.softReset).mod = 0 := rfl
@[simp] theorem State.softReset_root (s : State) : (s.softReset).root = 0 := rfl
@[simp] theorem State.softReset_len (s : State) : (s.softReset).len = 0 := rfl
@[simp] theorem State.softReset_opa (s : State) : (s.softReset).opa = 0 := rfl
@[simp] theorem State.softReset_opb (s : State) : (s.softReset).opb = 0 := rfl
@[simp] theorem State.softReset_result (s : State) : (s.softReset).result = 0 := rfl
@[simp] theorem State.softReset_mctxMod (s : State) : (s.softReset).mctxMod = 0 := rfl
@[simp] theorem State.softReset_mctxInv (s : State) : (s.softReset).mctxInv = 0 := rfl
@[simp] theorem State.softReset_rtab (s : State) : (s.softReset).rtab = List.replicate s.params.lmax 0 := rfl
@[simp] theorem State.softReset_data (s : State) : (s.softReset).data = s.dataAfterSoftReset := rfl
@[simp] theorem State.softReset_scratch (s : State) : (s.softReset).scratch = [] := rfl
@[simp] theorem State.softReset_pend (s : State) : (s.softReset).pend = none := rfl
@[simp] theorem State.softReset_port (s : State) : (s.softReset).port = s.port := rfl

/-! ## A power-on reset -/

@[simp] theorem State.powerOn_params (s : State) : (s.powerOn).params = s.params := rfl
@[simp] theorem State.powerOn_irqEn (s : State) : (s.powerOn).irqEn = false := rfl
@[simp] theorem State.powerOn_rtHost (s : State) : (s.powerOn).rtHost = false := rfl
@[simp] theorem State.powerOn_done (s : State) : (s.powerOn).done = false := rfl
@[simp] theorem State.powerOn_err (s : State) : (s.powerOn).err = false := rfl
@[simp] theorem State.powerOn_mctxValid (s : State) : (s.powerOn).mctxValid = false := rfl
@[simp] theorem State.powerOn_errcode (s : State) : (s.powerOn).errcode = 0 := rfl
@[simp] theorem State.powerOn_mod (s : State) : (s.powerOn).mod = 0 := rfl
@[simp] theorem State.powerOn_root (s : State) : (s.powerOn).root = 0 := rfl
@[simp] theorem State.powerOn_len (s : State) : (s.powerOn).len = 0 := rfl
@[simp] theorem State.powerOn_opa (s : State) : (s.powerOn).opa = 0 := rfl
@[simp] theorem State.powerOn_opb (s : State) : (s.powerOn).opb = 0 := rfl
@[simp] theorem State.powerOn_result (s : State) : (s.powerOn).result = 0 := rfl
@[simp] theorem State.powerOn_mctxMod (s : State) : (s.powerOn).mctxMod = 0 := rfl
@[simp] theorem State.powerOn_mctxInv (s : State) : (s.powerOn).mctxInv = 0 := rfl
@[simp] theorem State.powerOn_rtab (s : State) : (s.powerOn).rtab = List.replicate s.params.lmax 0 := rfl
@[simp] theorem State.powerOn_data (s : State) : (s.powerOn).data = [] := rfl
@[simp] theorem State.powerOn_scratch (s : State) : (s.powerOn).scratch = [] := rfl
@[simp] theorem State.powerOn_pend (s : State) : (s.powerOn).pend = none := rfl
@[simp] theorem State.powerOn_port (s : State) : (s.powerOn).port = s.port := rfl

end Sys2Proof.Machine
end

