-- ==== Sys2Proof/Laws/Complete.lean ====
section
/-! SUPPORT. Everything completing a command can do (spec/60_exceptions.md R244 to R246). -/

namespace Sys2Proof.Machine

@[simp] theorem firstFailure_nil : firstFailure [] = none := rfl

@[simp] theorem firstFailure_cons_true (e : ErrCode) (l : List (Bool × ErrCode)) :
    firstFailure ((true, e) :: l) = firstFailure l := rfl

@[simp] theorem firstFailure_cons_false (e : ErrCode) (l : List (Bool × ErrCode)) :
    firstFailure ((false, e) :: l) = some e := rfl

/-- No check fails exactly when every check holds. -/
theorem firstFailure_eq_none {l : List (Bool × ErrCode)} : firstFailure l = none ↔ ∀ c ∈ l, c.1 = true := by
  induction l with
  | nil => simp
  | cons c l ih =>
    obtain ⟨ok, e⟩ := c
    cases ok <;> simp [ih]

/-- A reported error is that of a check that fails while every check before it holds. -/
theorem firstFailure_eq_some {l : List (Bool × ErrCode)} {e : ErrCode} :
    firstFailure l = some e ↔ ∃ before after, l = before ++ (false, e) :: after ∧ ∀ c ∈ before, c.1 = true := by
  induction l with
  | nil => simp
  | cons c l ih =>
    obtain ⟨ok, f⟩ := c
    cases ok with
    | false =>
      simp only [firstFailure_cons_false, Option.some.injEq]
      constructor
      · rintro rfl
        exact ⟨[], l, rfl, by simp⟩
      · rintro ⟨before, after, h, hb⟩
        cases before with
        | nil => simpa using congrArg (fun l => l.head?.map Prod.snd) h
        | cons c before =>
          have hc : (false, f) = c := by simpa using congrArg List.head? h
          have := hb c List.mem_cons_self
          simp [← hc] at this
    | true =>
      rw [firstFailure_cons_true, ih]
      constructor
      · rintro ⟨before, after, rfl, hb⟩
        exact ⟨(true, f) :: before, after, rfl, by simpa using hb⟩
      · rintro ⟨before, after, h, hb⟩
        cases before with
        | nil => simp at h
        | cons c before =>
          obtain ⟨rfl, rfl⟩ := by simpa using h
          exact ⟨before, after, rfl, fun d hd => hb d (List.mem_cons_of_mem _ hd)⟩

/-- A command whose checks hold makes its writes and succeeds. -/
theorem complete_success {checks : List (Bool × ErrCode)} {effect : State → State} {s : State}
    (h : firstFailure checks = none) : complete checks effect s = .next (effect s).succeeded := by
  simp [complete, h]

/-- A command with a failing check reports the first one and writes nothing else. -/
theorem complete_failure {checks : List (Bool × ErrCode)} {effect : State → State} {s : State} {e : ErrCode}
    (h : firstFailure checks = some e) : complete checks effect s = .next (s.failed e) := by
  simp [complete, h]

/-- Completing a command answers a next state, and it is one of the two above. -/
theorem complete_cases {checks : List (Bool × ErrCode)} {effect : State → State} {s t : State}
    (h : complete checks effect s = .next t) :
    (∃ e, firstFailure checks = some e ∧ t = s.failed e) ∨
      (firstFailure checks = none ∧ t = (effect s).succeeded) := by
  unfold complete at h
  split at h
  · rename_i e he
    exact .inl ⟨e, he, by cases h; rfl⟩
  · rename_i he
    exact .inr ⟨he, by cases h; rfl⟩

/-- Completing a command never faults and is never refused. -/
theorem complete_next (checks : List (Bool × ErrCode)) (effect : State → State) (s : State) :
    ∃ t, complete checks effect s = .next t := by
  unfold complete
  split
  · exact ⟨_, rfl⟩
  · exact ⟨_, rfl⟩

/-- Two states in which a command's checks agree, and whose completions a function `f` relates, complete alike. -/
theorem complete_congr {checks checks' : List (Bool × ErrCode)} {effect effect' : State → State} {s s' t : State}
    (f : State → State) (hc : checks' = checks) (he : ∀ e, s'.failed e = f (s.failed e))
    (hs : (effect' s').succeeded = f (effect s).succeeded) (h : complete checks effect s = .next t) :
    complete checks' effect' s' = .next (f t) := by
  subst hc
  rcases complete_cases h with ⟨e, h1, rfl⟩ | ⟨h1, rfl⟩
  · rw [complete_failure h1, he]
  · rw [complete_success h1, hs]

end Sys2Proof.Machine
end

