-- ==== Sys2Proof/Laws/Memory.lean ====
section
/-! SUPPORT. The laws of the element buffers: what a read gives after each operation, and that every operation keeps the
canonical form and the bound on the indexes. -/

namespace Sys2Proof.Machine

/-! ## Canonical form -/

theorem Memory.wf_iff {m : Memory} : m.wf = true ↔ m.Pairwise fun a b => a.1 < b.1 := by
  simp [Memory.wf, List.pairwise_map]

@[simp] theorem Memory.wf_nil : Memory.wf [] = true := rfl

@[simp] theorem Memory.below_nil (n : Nat) : Memory.below [] n = true := rfl

theorem Memory.below_iff {m : Memory} {n : Nat} : m.below n = true ↔ ∀ c ∈ m, c.1 < n := by
  simp [Memory.below]

/-- The indexes of a buffer after a write: the old ones and the written one. -/
theorem Memory.mem_write {m : Memory} {i : Nat} {v : Word} {c : Nat × Word} (h : c ∈ m.write i v) :
    c = (i, v) ∨ c ∈ m := by
  induction m with
  | nil => simpa [Memory.write] using h
  | cons d m ih =>
    obtain ⟨j, w⟩ := d
    simp only [Memory.write] at h
    split at h
    · simpa using h
    · split at h
      · rcases List.mem_cons.1 h with h | h
        · exact .inl h
        · exact .inr (List.mem_cons_of_mem _ h)
      · rcases List.mem_cons.1 h with h | h
        · exact .inr (h ▸ List.mem_cons_self)
        · exact (ih h).imp_right (List.mem_cons_of_mem _)

theorem Memory.write_wf {m : Memory} (h : m.wf = true) (i : Nat) (v : Word) : (m.write i v).wf = true := by
  rw [Memory.wf_iff] at h ⊢
  induction m with
  | nil => simp [Memory.write]
  | cons d m ih =>
    obtain ⟨j, w⟩ := d
    obtain ⟨hd, hm⟩ := List.pairwise_cons.1 h
    simp only [Memory.write]
    split
    · rename_i hlt
      refine List.pairwise_cons.2 ⟨?_, h⟩
      intro c hc
      rcases List.mem_cons.1 hc with rfl | hc
      · exact hlt
      · exact lt_trans hlt (hd c hc)
    · split
      · rename_i heq
        exact List.pairwise_cons.2 ⟨fun c hc => heq ▸ hd c hc, hm⟩
      · refine List.pairwise_cons.2 ⟨?_, ih hm⟩
        intro c hc
        rcases Memory.mem_write hc with rfl | hc
        · simp only; omega
        · exact hd c hc

theorem Memory.write_below {m : Memory} {n i : Nat} (h : m.below n = true) (hi : i < n) (v : Word) :
    (m.write i v).below n = true := by
  rw [Memory.below_iff] at h ⊢
  intro c hc
  rcases Memory.mem_write hc with rfl | hc
  · exact hi
  · exact h c hc

theorem Memory.poisonBelow_wf {m : Memory} (h : m.wf = true) (n : Nat) : (m.poisonBelow n).wf = true := by
  rw [Memory.wf_iff] at h ⊢
  exact h.filter _

theorem Memory.poisonBelow_below {m : Memory} {b : Nat} (h : m.below b = true) (n : Nat) :
    (m.poisonBelow n).below b = true := by
  rw [Memory.below_iff] at h ⊢
  exact fun c hc => h c (List.mem_filter.1 hc).1

/-- The cells a sequence write lists: index `k + i` holds `ys[i]`. -/
theorem Memory.pairwise_zipIdx (ys : List Word) (k : Nat) :
    ((ys.zipIdx k).map fun c => (c.2, c.1)).Pairwise fun a b : Nat × Word => a.1 < b.1 := by
  induction ys generalizing k with
  | nil => simp
  | cons y ys ih =>
    simp only [List.zipIdx_cons, List.map_cons, List.pairwise_cons]
    refine ⟨?_, ih (k + 1)⟩
    intro c hc
    obtain ⟨p, hp, rfl⟩ := List.mem_map.1 hc
    have := List.le_snd_of_mem_zipIdx hp
    simp only
    omega

theorem Memory.writeSeq_wf {m : Memory} (h : m.wf = true) (ys : List Word) : (m.writeSeq ys).wf = true := by
  rw [Memory.wf_iff, Memory.writeSeq, List.pairwise_append]
  refine ⟨Memory.pairwise_zipIdx ys 0, Memory.wf_iff.1 (Memory.poisonBelow_wf h _), ?_⟩
  intro a ha b hb
  obtain ⟨p, hp, rfl⟩ := List.mem_map.1 ha
  have h1 := List.snd_lt_of_mem_zipIdx hp
  have h2 : ys.length ≤ b.1 := by simpa using (List.mem_filter.1 hb).2
  simp only
  omega

theorem Memory.writeSeq_below {m : Memory} {n : Nat} (h : m.below n = true) {ys : List Word} (hy : ys.length ≤ n) :
    (m.writeSeq ys).below n = true := by
  rw [Memory.below_iff]
  intro c hc
  rcases List.mem_append.1 hc with hc | hc
  · obtain ⟨p, hp, rfl⟩ := List.mem_map.1 hc
    have := List.snd_lt_of_mem_zipIdx hp
    simp only
    omega
  · exact Memory.below_iff.1 (Memory.poisonBelow_below h _) c hc

/-! ## What a read gives -/

@[simp] theorem Memory.read_nil (i : Nat) : Memory.read [] i = none := rfl

/-- An index listed nowhere is poisoned. -/
theorem Memory.read_eq_none {m : Memory} {i : Nat} (h : ∀ c ∈ m, c.1 ≠ i) : m.read i = none := by
  induction m with
  | nil => rfl
  | cons d m ih =>
    obtain ⟨j, w⟩ := d
    have hj : j ≠ i := h (j, w) List.mem_cons_self
    simp only [Memory.read, hj, if_false]
    exact ih fun c hc => h c (List.mem_cons_of_mem _ hc)

/-- Read after write. -/
theorem Memory.read_write {m : Memory} (i j : Nat) (v : Word) :
    (m.write i v).read j = if i = j then some v else m.read j := by
  induction m with
  | nil => simp [Memory.write, Memory.read]
  | cons d m ih =>
    obtain ⟨k, w⟩ := d
    simp only [Memory.write]
    split
    · simp [Memory.read]
    · split
      · rename_i heq
        subst heq
        by_cases hij : i = j <;> simp [Memory.read, hij]
      · rename_i hne
        simp only [Memory.read, ih]
        by_cases hkj : k = j
        · have : i ≠ j := fun h => hne (h.trans hkj.symm)
          simp [hkj, this]
        · simp [hkj]

@[simp] theorem Memory.read_write_same {m : Memory} (i : Nat) (v : Word) : (m.write i v).read i = some v := by
  simp [Memory.read_write]

theorem Memory.read_write_other {m : Memory} {i j : Nat} (v : Word) (h : i ≠ j) : (m.write i v).read j = m.read j := by
  simp [Memory.read_write, h]

theorem Memory.read_append {m m' : Memory} (i : Nat) : (m ++ m' : Memory).read i = (m.read i).or (m'.read i) := by
  induction m with
  | nil => simp
  | cons d m ih =>
    obtain ⟨j, w⟩ := d
    by_cases h : j = i
    · simp [Memory.read, h]
    · simpa [Memory.read, h] using ih

theorem Memory.read_poisonBelow {m : Memory} (n i : Nat) :
    (m.poisonBelow n).read i = if i < n then none else m.read i := by
  induction m with
  | nil => simp [Memory.poisonBelow]
  | cons d m ih =>
    obtain ⟨j, w⟩ := d
    unfold Memory.poisonBelow at ih ⊢
    by_cases hj : n ≤ j
    · by_cases hji : j = i
      · subst hji
        simp [hj, Memory.read, Nat.not_lt.2 hj]
      · simpa [List.filter_cons, hj, Memory.read, hji] using ih
    · by_cases hji : j = i
      · subst hji
        have : j < n := by omega
        simpa [List.filter_cons, hj, Memory.read, this] using ih
      · simpa [List.filter_cons, hj, Memory.read, hji] using ih

theorem Memory.read_zipIdx (ys : List Word) (k i : Nat) :
    Memory.read ((ys.zipIdx k).map fun c => (c.2, c.1)) (k + i) = ys[i]? := by
  induction ys generalizing k i with
  | nil => simp
  | cons y ys ih =>
    cases i with
    | zero => simp [List.zipIdx_cons, Memory.read]
    | succ i =>
      have hne : k ≠ k + (i + 1) := by omega
      have := ih (k + 1) i
      simp only [List.zipIdx_cons, List.map_cons, Memory.read, hne, if_false, List.getElem?_cons_succ]
      rw [← this]
      congr 1
      omega

/-- What every element reads as after a sequence write. -/
theorem Memory.read_writeSeq {m : Memory} (ys : List Word) (i : Nat) :
    (m.writeSeq ys).read i = if i < ys.length then ys[i]? else m.read i := by
  have hz := Memory.read_zipIdx ys 0 i
  simp only [Nat.zero_add] at hz
  rw [Memory.writeSeq, Memory.read_append, hz, Memory.read_poisonBelow]
  by_cases h : i < ys.length
  · simp [h]
  · simp [h]

theorem Memory.clean_iff {m : Memory} {n : Nat} : m.clean n = true ↔ ∀ i < n, (m.read i).isSome = true := by
  simp [Memory.clean]

@[simp] theorem Memory.length_readSeq (m : Memory) (n : Nat) : (m.readSeq n).length = n := by
  simp [Memory.readSeq]

theorem Memory.getElem?_readSeq {m : Memory} {n i : Nat} (h : i < n) :
    (m.readSeq n)[i]? = some ((m.read i).getD 0) := by
  simp [Memory.readSeq, h]

/-- Two canonical buffers whose elements all read alike are equal. -/
theorem Memory.ext_of_wf {m m' : Memory} (h : m.wf = true) (h' : m'.wf = true) (e : ∀ i, m.read i = m'.read i) :
    m = m' := by
  rw [Memory.wf_iff] at h h'
  induction m generalizing m' with
  | nil =>
    cases m' with
    | nil => rfl
    | cons d m' =>
      obtain ⟨j, w⟩ := d
      simpa [Memory.read] using e j
  | cons d m ih =>
    obtain ⟨j, w⟩ := d
    obtain ⟨hd, hm⟩ := List.pairwise_cons.1 h
    cases m' with
    | nil => simpa [Memory.read] using e j
    | cons d' m' =>
      obtain ⟨k, x⟩ := d'
      obtain ⟨hd', hm'⟩ := List.pairwise_cons.1 h'
      have above : ∀ (l : Memory) (a : Nat), (∀ c ∈ l, a < c.1) → ∀ b ≤ a, Memory.read l b = none :=
        fun l a hl b hb => Memory.read_eq_none fun c hc heq => by have := hl c hc; omega
      have hjk : j = k := by
        rcases lt_trichotomy j k with hlt | heq | hgt
        · have := e j
          simp [Memory.read, Nat.ne_of_gt hlt, above m' k hd' j (le_of_lt hlt)] at this
        · exact heq
        · have := e k
          simp [Memory.read, Nat.ne_of_gt hgt, above m j hd k (le_of_lt hgt)] at this
      subst hjk
      have hwx : w = x := by simpa [Memory.read] using e j
      subst hwx
      refine congrArg _ (ih hm hm' fun i => ?_)
      by_cases hji : j = i
      · subst hji
        rw [above m j hd j le_rfl, above m' j hd' j le_rfl]
      · simpa [Memory.read, hji] using e i

end Sys2Proof.Machine
end

