-- ==== Sys2Proof/Laws/Transform.lean ====
section
/-! SUPPORT. The transforms' output functions keep the length of the sequence and give elements below the modulus
(spec/40_ntt_common.md R119, spec/41_ntt_recursive.md R140, spec/42_ntt_iterative.md R160). -/

namespace Sys2Proof.Machine

/-! ## Even and odd halves -/

theorem getElem?_evens (x : List Nat) (i : Nat) : (evens x)[i]? = x[2 * i]? := by
  induction x using evens.induct generalizing i with
  | case1 => simp [evens]
  | case2 a =>
    cases i with
    | zero => simp [evens]
    | succ i => simp [evens, Nat.mul_add]
  | case3 a b rest ih =>
    cases i with
    | zero => simp [evens]
    | succ i => simpa [evens, Nat.mul_add] using ih i

theorem getElem?_odds (x : List Nat) (i : Nat) : (odds x)[i]? = x[2 * i + 1]? := by
  induction x using odds.induct generalizing i with
  | case1 => simp [odds]
  | case2 a => simp [odds]
  | case3 a b rest ih =>
    cases i with
    | zero => simp [odds]
    | succ i => simpa [odds, Nat.mul_add] using ih i

theorem length_evens (x : List Nat) : (evens x).length = (x.length + 1) / 2 := by
  induction x using evens.induct with
  | case1 => simp [evens]
  | case2 a => simp [evens]
  | case3 a b rest ih =>
    simp only [evens, List.length_cons, ih]
    omega

theorem length_odds (x : List Nat) : (odds x).length = x.length / 2 := by
  induction x using odds.induct with
  | case1 => simp [odds]
  | case2 a => simp [odds]
  | case3 a b rest ih =>
    simp only [odds, List.length_cons, ih]
    omega

theorem getD_evens (x : List Nat) (i : Nat) : (evens x).getD i 0 = x.getD (2 * i) 0 := by
  simp only [List.getD_eq_getElem?_getD, getElem?_evens]

theorem getD_odds (x : List Nat) (i : Nat) : (odds x).getD i 0 = x.getD (2 * i + 1) 0 := by
  simp only [List.getD_eq_getElem?_getD, getElem?_odds]

theorem length_evens_pow {x : List Nat} {m : Nat} (h : x.length = 2 ^ (m + 1)) : (evens x).length = 2 ^ m := by
  rw [length_evens, h, pow_succ]
  omega

theorem length_odds_pow {x : List Nat} {m : Nat} (h : x.length = 2 ^ (m + 1)) : (odds x).length = 2 ^ m := by
  rw [length_odds, h, pow_succ]
  omega

/-! ## The recursive core -/

@[simp] theorem length_combine (N r h : Nat) (E O : List Nat) : (combine N r h E O).length = 2 * h := by
  simp [combine]
  omega

/-- R140: the first half of the combine step. -/
theorem getElem?_combine_low {N r h k : Nat} (E O : List Nat) (hk : k < h) :
    (combine N r h E O)[k]? = some (addm (E.getD k 0) (mulm (tw r k N) (O.getD k 0) N) N) := by
  rw [combine, List.getElem?_append_left (by simpa using hk)]
  simp [hk]

/-- R140: the second half of the combine step. -/
theorem getElem?_combine_high {N r h k : Nat} (E O : List Nat) (hk : k < h) :
    (combine N r h E O)[k + h]? = some (subm (E.getD k 0) (mulm (tw r k N) (O.getD k 0) N) N) := by
  rw [combine, List.getElem?_append_right (by simp)]
  simp [hk]

theorem combine_lt {N : Nat} (hN : 0 < N) (r h : Nat) (E O : List Nat) : ∀ v ∈ combine N r h E O, v < N := by
  intro v hv
  simp only [combine, List.mem_append, List.mem_map] at hv
  rcases hv with ⟨k, -, rfl⟩ | ⟨k, -, rfl⟩
  · exact addm_lt _ _ hN
  · exact subm_lt _ _ hN

theorem length_recCore (N : Nat) (root : Nat → Nat) (m : Nat) (x : List Nat) (h : x.length = 2 ^ m) :
    (recCore N root m x).length = 2 ^ m := by
  cases m with
  | zero => simpa [recCore] using h
  | succ m =>
    rw [recCore, length_combine, pow_succ]
    omega

/-- The core reads a level root only through its twiddles of index below half the level's length. -/
theorem recCore_congr (N : Nat) {root root' : Nat → Nat} (M : Nat)
    (h : ∀ m, 1 ≤ m → m ≤ M → ∀ k < 2 ^ (m - 1), tw (root m) k N = tw (root' m) k N) (x : List Nat) :
    recCore N root M x = recCore N root' M x := by
  induction M generalizing x with
  | zero => rfl
  | succ M ih =>
    have ih' := ih fun m h1 h2 => h m h1 (by omega)
    have hk := h (M + 1) (by omega) le_rfl
    simp only [Nat.add_sub_cancel] at hk
    simp only [recCore, ih']
    have hq : ∀ k ∈ List.range (2 ^ M), mulm (tw (root (M + 1)) k N) ((recCore N root' M (odds x)).getD k 0) N =
        mulm (tw (root' (M + 1)) k N) ((recCore N root' M (odds x)).getD k 0) N :=
      fun k hm => by rw [hk k (List.mem_range.1 hm)]
    show List.map _ _ ++ List.map _ _ = List.map _ _ ++ List.map _ _
    congr 1
    · apply List.map_congr_left
      intro k hm
      simp only [hq k hm]
    · apply List.map_congr_left
      intro k hm
      simp only [hq k hm]

theorem recCore_lt {N : Nat} (hN : 0 < N) (root : Nat → Nat) (m : Nat) (x : List Nat) :
    ∀ v ∈ recCore N root (m + 1) x, v < N := by
  rw [recCore]
  exact combine_lt hN _ _ _ _

/-! ## The iterative core -/

@[simp] theorem length_iterButterfly (N r n ns : Nat) (a b : List Nat) (j : Nat) :
    (iterButterfly N r n ns a b j).length = b.length := by simp [iterButterfly]

theorem iterButterfly_lt {N : Nat} (hN : 0 < N) (r n ns : Nat) (a b : List Nat) (j : Nat) (hb : ∀ v ∈ b, v < N) :
    ∀ v ∈ iterButterfly N r n ns a b j, v < N := by
  intro v hv
  simp only [iterButterfly] at hv
  rcases List.mem_or_eq_of_mem_set hv with hv | rfl
  · rcases List.mem_or_eq_of_mem_set hv with hv | rfl
    · exact hb v hv
    · exact addm_lt _ _ hN
  · exact subm_lt _ _ hN

/-- What a run of butterflies keeps. -/
theorem foldl_iterButterfly_keeps (P : List Nat → Prop) (N r n ns : Nat) (a : List Nat)
    (keep : ∀ b j, P b → P (iterButterfly N r n ns a b j)) (js : List Nat) (b : List Nat) (hb : P b) :
    P (js.foldl (iterButterfly N r n ns a) b) := by
  induction js generalizing b with
  | nil => exact hb
  | cons j js ih => exact ih _ (keep b j hb)

@[simp] theorem length_iterStage (N r n ns : Nat) (a : List Nat) : (iterStage N r n ns a).length = n :=
  foldl_iterButterfly_keeps (fun b => b.length = n) N r n ns a (fun b j hb => by simpa using hb) _ _ (by simp)

theorem iterStage_lt {N : Nat} (hN : 0 < N) (r n ns : Nat) (a : List Nat) : ∀ v ∈ iterStage N r n ns a, v < N :=
  foldl_iterButterfly_keeps (fun b => ∀ v ∈ b, v < N) N r n ns a
    (fun b j hb => iterButterfly_lt hN r n ns a b j hb) _ _
    fun v hv => by obtain ⟨-, rfl⟩ := List.mem_replicate.1 hv; exact hN

theorem length_iterLoop (N r n fuel ns : Nat) (a : List Nat) (h : a.length = n) :
    (iterLoop N r n fuel ns a).length = n := by
  induction fuel generalizing ns a with
  | zero => simpa [iterLoop] using h
  | succ fuel ih =>
    simp only [iterLoop]
    split
    · exact ih _ _ (length_iterStage ..)
    · exact h

theorem iterLoop_lt {N : Nat} (hN : 0 < N) (r n fuel ns : Nat) (a : List Nat) (h : ∀ v ∈ a, v < N) :
    ∀ v ∈ iterLoop N r n fuel ns a, v < N := by
  induction fuel generalizing ns a with
  | zero => simpa [iterLoop] using h
  | succ fuel ih =>
    simp only [iterLoop]
    split
    · exact ih _ _ (iterStage_lt hN _ _ _ _)
    · exact h

@[simp] theorem length_iterCore (x : List Nat) (N r : Nat) : (iterCore x N r).length = x.length :=
  length_iterLoop _ _ _ _ _ _ rfl

theorem iterCore_lt {N : Nat} (hN : 0 < N) (r : Nat) (x : List Nat) (h : 2 ≤ x.length) :
    ∀ v ∈ iterCore x N r, v < N := by
  have hlog : x.length.log2 ≠ 0 := by
    intro h0
    have := Nat.lt_log2_self (n := x.length)
    rw [h0] at this
    omega
  obtain ⟨fuel, hfuel⟩ := Nat.exists_eq_succ_of_ne_zero hlog
  rw [iterCore, hfuel, iterLoop, if_pos (by omega)]
  exact iterLoop_lt hN _ _ _ _ _ (iterStage_lt hN _ _ _ _)

/-! ## The four output functions -/

theorem length_fwdIter (x : List Nat) (N w : Nat) : (fwdIter x N w).length = x.length := by
  unfold fwdIter
  split <;> simp

theorem length_invIter (x : List Nat) (N w : Nat) : (invIter x N w).length = x.length := by simp [invIter]

theorem length_fwdRec {x : List Nat} {L : Nat} (h : x.length = 2 ^ L) (N : Nat) (root : Nat → Nat) :
    (fwdRec x N root).length = x.length := by
  unfold fwdRec
  split
  · simp
  · rw [h, Nat.log2_two_pow, length_recCore _ _ _ _ h]

theorem length_invRec {x : List Nat} {L : Nat} (h : x.length = 2 ^ L) (N : Nat) (root : Nat → Nat) :
    (invRec x N root).length = x.length := by
  rw [invRec, length_scale, h, Nat.log2_two_pow, length_recCore _ _ _ _ h]

theorem scale_lt {N : Nat} (hN : 0 < N) (y : List Nat) (f : Nat) : ∀ v ∈ scale y f N, v < N := by
  intro v hv
  obtain ⟨u, -, rfl⟩ := List.mem_map.1 hv
  exact mulm_lt _ _ hN

theorem fwdIter_lt {N : Nat} (hN : 0 < N) (w : Nat) (x : List Nat) : ∀ v ∈ fwdIter x N w, v < N := by
  unfold fwdIter
  split
  · intro v hv
    obtain ⟨u, -, rfl⟩ := List.mem_map.1 hv
    exact Nat.mod_lt _ hN
  · rename_i h1
    by_cases h0 : x.length = 0
    · have : iterCore x N w = [] := List.length_eq_zero_iff.1 (by simpa using h0)
      simp [this]
    · exact iterCore_lt hN w x (by omega)

theorem invIter_lt {N : Nat} (hN : 0 < N) (w : Nat) (x : List Nat) : ∀ v ∈ invIter x N w, v < N :=
  scale_lt hN _ _

theorem fwdRec_lt {N : Nat} (hN : 0 < N) (root : Nat → Nat) {x : List Nat} {L : Nat} (h : x.length = 2 ^ L) :
    ∀ v ∈ fwdRec x N root, v < N := by
  unfold fwdRec
  split
  · intro v hv
    obtain ⟨u, -, rfl⟩ := List.mem_map.1 hv
    exact Nat.mod_lt _ hN
  · rename_i h1
    cases L with
    | zero => exact absurd h (by simpa using h1)
    | succ L =>
      rw [h, Nat.log2_two_pow]
      exact recCore_lt hN _ _ _

theorem invRec_lt {N : Nat} (hN : 0 < N) (root : Nat → Nat) (x : List Nat) : ∀ v ∈ invRec x N root, v < N :=
  scale_lt hN _ _

/-! ## What a transform does to the state -/

@[simp] theorem State.length_inputSeq (s : State) : s.inputSeq.length = s.len.toNat := by simp [State.inputSeq]

/-- With no poisoned input, a transform writes its output and leaves `SCRATCH` unspecified. -/
theorem transformEffect_clean {F : List Nat → List Nat} {s : State} (h : s.data.clean s.len.toNat = true) :
    transformEffect F s = s.setData (s.data.writeSeq ((F s.inputSeq).map u64)) := by simp [transformEffect, h]

/-- With a poisoned input element, a transform poisons all of its output (R41). -/
theorem transformEffect_poisoned {F : List Nat → List Nat} {s : State} (h : s.data.clean s.len.toNat = false) :
    transformEffect F s = s.setData (s.data.poisonBelow s.len.toNat) := by simp [transformEffect, h]

/-- Two states with the same `DATA` and `LEN`, and transforms that agree on the input, give the same output. -/
theorem transformEffect_congr {F F' : List Nat → List Nat} {s s' : State} (f : State → State) (hd : s'.data = s.data)
    (hl : s'.len = s.len) (hF : F' s.inputSeq = F s.inputSeq)
    (hf : ∀ d, (s'.setData d).succeeded = f (s.setData d).succeeded) :
    (transformEffect F' s').succeeded = f (transformEffect F s).succeeded := by
  have hx : s'.inputSeq = s.inputSeq := by simp [State.inputSeq, hd, hl]
  unfold transformEffect
  rw [hd, hl, hx, hF]
  split
  · exact hf _
  · exact hf _

/-- In either case only `DATA` and `SCRATCH` change. -/
theorem transformEffect_setData (F : List Nat → List Nat) (s : State) : ∃ d, transformEffect F s = s.setData d := by
  unfold transformEffect
  split
  · exact ⟨_, rfl⟩
  · exact ⟨_, rfl⟩

end Sys2Proof.Machine
end

