-- ==== Sys2Proof/Laws/Exec.lean ====
section
/-! SUPPORT. Every command is its checks, in order, and then its writes: what each command checks and writes, once
(spec/10_state.md R39, spec/60_exceptions.md R244 to R246). -/

namespace Sys2Proof.Machine

/-- The checks of a command that decodes, in the order of R246. -/
def checksOf (i : Instr) (s : State) : List (Bool × ErrCode) :=
  match i with
  | .nop => []
  | .nttFwdIter | .nttInvIter => transformChecks s
  | .nttFwdRec | .nttInvRec => recursiveChecks s
  | .nttFwdNaive | .nttInvNaive => [(false, .unsupported)]
  | .montSetup => [(modOk s.mod.toNat, .badModulus)]
  | .montTo | .montMul | .montFrom => contextChecks s
  | .modexp => modexpChecks s
  | .rootchk => rootchkChecks s

/-- The output function of a transform in the state `s`; of any other command, nothing. -/
def outputOf (i : Instr) (s : State) (x : List Nat) : List Nat :=
  match i with
  | .nttFwdIter => fwdIter x s.mod.toNat s.root.toNat
  | .nttInvIter => invIter x s.mod.toNat s.root.toNat
  | .nttFwdRec => fwdRec x s.mod.toNat s.rootFwd
  | .nttInvRec => invRec x s.mod.toNat s.rootInv
  | .nop | .nttFwdNaive | .nttInvNaive | .montSetup | .montTo | .montMul | .montFrom | .modexp | .rootchk => []

/-- The writes of a command that succeeds. -/
def effectOf (i : Instr) (s : State) : State :=
  match i with
  | .nop | .nttFwdNaive | .nttInvNaive => s
  | .nttFwdIter | .nttInvIter | .nttFwdRec | .nttInvRec => transformEffect (outputOf i s) s
  | .montSetup => s.setContext s.mod (minv s.mod)
  | .montTo => s.setResult (toMontgomery s.opa.toNat s.mctxMod.toNat)
  | .montMul => s.setResult (redc s.opa.toNat s.opb.toNat s.mctxMod.toNat s.mctxInv.toNat)
  | .montFrom => s.setResult (redc s.opa.toNat 1 s.mctxMod.toNat s.mctxInv.toNat)
  | .modexp => s.setResult (powMod s.opa.toNat s.opb.toNat s.mod.toNat)
  | .rootchk => s.setResult (if rootOrderOk s.root.toNat s.len.toNat s.mod.toNat then 1 else 0)

/-! ## What each command writes, by name -/

@[simp] theorem effectOf_nop (s : State) : effectOf .nop s = s := rfl
@[simp] theorem effectOf_montSetup (s : State) : effectOf .montSetup s = s.setContext s.mod (minv s.mod) := rfl
@[simp] theorem effectOf_montTo (s : State) :
    effectOf .montTo s = s.setResult (toMontgomery s.opa.toNat s.mctxMod.toNat) := rfl
@[simp] theorem effectOf_montMul (s : State) :
    effectOf .montMul s = s.setResult (redc s.opa.toNat s.opb.toNat s.mctxMod.toNat s.mctxInv.toNat) := rfl
@[simp] theorem effectOf_montFrom (s : State) :
    effectOf .montFrom s = s.setResult (redc s.opa.toNat 1 s.mctxMod.toNat s.mctxInv.toNat) := rfl
@[simp] theorem effectOf_modexp (s : State) :
    effectOf .modexp s = s.setResult (powMod s.opa.toNat s.opb.toNat s.mod.toNat) := rfl
@[simp] theorem effectOf_rootchk (s : State) :
    effectOf .rootchk s =
      s.setResult (if rootOrderOk s.root.toNat s.len.toNat s.mod.toNat then 1 else 0) := rfl
@[simp] theorem effectOf_nttFwdIter (s : State) :
    effectOf .nttFwdIter s = transformEffect (fun x => fwdIter x s.mod.toNat s.root.toNat) s := rfl
@[simp] theorem effectOf_nttInvIter (s : State) :
    effectOf .nttInvIter s = transformEffect (fun x => invIter x s.mod.toNat s.root.toNat) s := rfl
@[simp] theorem effectOf_nttFwdRec (s : State) :
    effectOf .nttFwdRec s = transformEffect (fun x => fwdRec x s.mod.toNat s.rootFwd) s := rfl
@[simp] theorem effectOf_nttInvRec (s : State) :
    effectOf .nttInvRec s = transformEffect (fun x => invRec x s.mod.toNat s.rootInv) s := rfl

/-- The commands that write `DATA` and `SCRATCH` (R39). -/
abbrev isTransform (i : Instr) : Prop := i ∈ [Instr.nttFwdIter, .nttInvIter, .nttFwdRec, .nttInvRec]

/-- The commands that write `RESULT` (R32). -/
abbrev isScalar (i : Instr) : Prop := i ∈ [Instr.montTo, .montMul, .montFrom, .modexp, .rootchk]

/-- A command is its checks and its writes. -/
theorem exec_eq (i : Instr) (s : State) : exec i s = complete (checksOf i s) (effectOf i) s := by
  cases i <;> rfl

/-- A command whose checks hold answers its writes, completed. -/
theorem exec_success {i : Instr} {s : State} (h : firstFailure (checksOf i s) = none) :
    exec i s = .next (effectOf i s).succeeded := by
  rw [exec_eq]
  exact complete_success h

/-- A command with a failing check answers the first one's error. -/
theorem exec_failure {i : Instr} {s : State} {e : ErrCode} (h : firstFailure (checksOf i s) = some e) :
    exec i s = .next (s.failed e) := by
  rw [exec_eq]
  exact complete_failure h

/-- A command answers one of the two. -/
theorem exec_cases {i : Instr} {s t : State} (h : exec i s = .next t) :
    (∃ e, firstFailure (checksOf i s) = some e ∧ t = s.failed e) ∨
      (firstFailure (checksOf i s) = none ∧ t = (effectOf i s).succeeded) := by
  rw [exec_eq] at h
  exact complete_cases h

/-- The writes of a command: none, `RESULT`, the context, or the buffers (R39). -/
theorem effectOf_cases (i : Instr) (s : State) :
    (¬ isScalar i ∧ i ≠ .montSetup ∧ ¬ isTransform i ∧ effectOf i s = s) ∨
      (isScalar i ∧ ∃ n, effectOf i s = s.setResult n) ∨
      (i = .montSetup ∧ effectOf i s = s.setContext s.mod (minv s.mod)) ∨
      (isTransform i ∧ ∃ d, effectOf i s = s.setData d) := by
  cases i
  case nop => exact .inl ⟨by decide, by decide, by decide, rfl⟩
  case nttFwdNaive => exact .inl ⟨by decide, by decide, by decide, rfl⟩
  case nttInvNaive => exact .inl ⟨by decide, by decide, by decide, rfl⟩
  case montTo => exact .inr (.inl ⟨by decide, _, rfl⟩)
  case montMul => exact .inr (.inl ⟨by decide, _, rfl⟩)
  case montFrom => exact .inr (.inl ⟨by decide, _, rfl⟩)
  case modexp => exact .inr (.inl ⟨by decide, _, rfl⟩)
  case rootchk => exact .inr (.inl ⟨by decide, _, rfl⟩)
  case montSetup => exact .inr (.inr (.inl ⟨rfl, rfl⟩))
  case nttFwdIter => exact .inr (.inr (.inr ⟨by decide, transformEffect_setData _ s⟩))
  case nttInvIter => exact .inr (.inr (.inr ⟨by decide, transformEffect_setData _ s⟩))
  case nttFwdRec => exact .inr (.inr (.inr ⟨by decide, transformEffect_setData _ s⟩))
  case nttInvRec => exact .inr (.inr (.inr ⟨by decide, transformEffect_setData _ s⟩))

/-- No command writes anything but `RESULT`, the context, `DATA` and `SCRATCH` before it completes. -/
theorem effectOf_shape (i : Instr) (s : State) : ∃ (r m v : Word) (ok : Bool) (d sc : Memory),
    effectOf i s =
      { s with result := r, mctxMod := m, mctxInv := v, mctxValid := ok, data := d, scratch := sc } := by
  rcases effectOf_cases i s with ⟨-, -, -, h⟩ | ⟨-, n, h⟩ | ⟨-, h⟩ | ⟨-, d, h⟩
  · exact ⟨_, _, _, _, _, _, h⟩
  · exact ⟨u64 n, _, _, _, _, _, h⟩
  · exact ⟨_, s.mod, minv s.mod, true, _, _, h⟩
  · exact ⟨_, _, _, _, d, [], h⟩

/-- Everything a command can change: `RESULT`, the context, the buffers and `STATUS`; it is no longer in flight (R39,
R244). -/
theorem exec_frame {i : Instr} {s t : State} (h : exec i s = .next t) :
    ∃ (r m v : Word) (ok e : Bool) (c : BitVec 8) (d sc : Memory),
      t = { s with
        result := r, mctxMod := m, mctxInv := v, mctxValid := ok, data := d, scratch := sc, err := e, errcode := c,
        done := true, pend := none } := by
  rcases exec_cases h with ⟨e, -, rfl⟩ | ⟨-, rfl⟩
  · exact ⟨_, _, _, _, _, _, _, _, rfl⟩
  · obtain ⟨r, m, v, ok, d, sc, h⟩ := effectOf_shape i s
    exact ⟨r, m, v, ok, s.err, s.errcode, d, sc, by rw [h]; rfl⟩

/-- Only the scalar commands write `RESULT` (R32). -/
theorem effectOf_result {i : Instr} (hi : ¬ isScalar i) (s : State) : (effectOf i s).result = s.result := by
  rcases effectOf_cases i s with ⟨-, -, -, h⟩ | ⟨hs, -⟩ | ⟨-, h⟩ | ⟨-, d, h⟩
  · rw [h]
  · exact absurd hs hi
  · rw [h, State.setContext_result]
  · rw [h, State.setData_result]

/-- Only `MONT_SETUP` writes the context (R33). -/
theorem effectOf_context {i : Instr} (hi : i ≠ .montSetup) (s : State) :
    (effectOf i s).mctxMod = s.mctxMod ∧ (effectOf i s).mctxInv = s.mctxInv ∧
      (effectOf i s).mctxValid = s.mctxValid := by
  rcases effectOf_cases i s with ⟨-, -, -, h⟩ | ⟨-, n, h⟩ | ⟨hs, -⟩ | ⟨-, d, h⟩
  · simp [h]
  · simp [h]
  · exact absurd hs hi
  · simp [h]

/-- Only the transforms write the buffers (R35, R36). -/
theorem effectOf_buffers {i : Instr} (hi : ¬ isTransform i) (s : State) :
    (effectOf i s).data = s.data ∧ (effectOf i s).scratch = s.scratch := by
  rcases effectOf_cases i s with ⟨-, -, -, h⟩ | ⟨-, n, h⟩ | ⟨-, h⟩ | ⟨hs, -⟩
  · simp [h]
  · simp [h]
  · simp [h]
  · exact absurd hs hi

/-- A transform whose checks hold has an odd modulus of at least 3, a length `2^L` that fits the buffer, and a root below
the modulus. -/
theorem transform_operands {i : Instr} (hi : isTransform i) {s : State} (h : firstFailure (checksOf i s) = none) :
    modOk s.mod.toNat = true ∧ lenOk s.params s.len.toNat = true ∧ rootOk s.root.toNat s.mod.toNat = true := by
  rw [firstFailure_eq_none] at h
  simp only [List.mem_cons, List.not_mem_nil, or_false] at hi
  have hsub : ∀ c ∈ transformChecks s, c.1 = true := by
    intro c hc
    refine h c ?_
    rcases hi with rfl | rfl | rfl | rfl
    · exact hc
    · exact hc
    · exact List.mem_append_left _ hc
    · exact List.mem_append_left _ hc
  exact ⟨hsub (modOk s.mod.toNat, .badModulus) (by simp [transformChecks]),
    hsub (lenOk s.params s.len.toNat, .invalidLength) (by simp [transformChecks]),
    hsub (rootOk s.root.toNat s.mod.toNat, .rootRange) (by simp [transformChecks])⟩

/-- A transform whose checks hold gives an output as long as its input, every element below the modulus. -/
theorem outputOf_length_lt {i : Instr} (hi : isTransform i) {s : State} (h : firstFailure (checksOf i s) = none) :
    (outputOf i s s.inputSeq).length = s.len.toNat ∧ ∀ v ∈ outputOf i s s.inputSeq, v < s.mod.toNat := by
  obtain ⟨hm, hl, -⟩ := transform_operands hi h
  obtain ⟨⟨L, hL⟩, -⟩ := lenOk_iff.1 hl
  have hN : 0 < s.mod.toNat := by
    have := (modOk_iff.1 hm).2
    omega
  have hx : s.inputSeq.length = 2 ^ L := by simp [hL]
  simp only [List.mem_cons, List.not_mem_nil, or_false] at hi
  rcases hi with rfl | rfl | rfl | rfl
  · exact ⟨by simp [outputOf, length_fwdIter], fwdIter_lt hN _ _⟩
  · exact ⟨by simp [outputOf, length_invIter], invIter_lt hN _ _⟩
  · exact ⟨by simp [outputOf, length_fwdRec hx], fwdRec_lt hN _ hx⟩
  · exact ⟨by simp [outputOf, length_invRec hx], invRec_lt hN _ _⟩

/-- What every `DATA` element reads as after a transform whose checks hold. -/
theorem read_transformEffect {i : Instr} (hi : isTransform i) {s : State} (h : firstFailure (checksOf i s) = none)
    (k : Nat) :
    (effectOf i s).data.read k =
      if s.len.toNat ≤ k then s.data.read k
      else if s.data.clean s.len.toNat then some (u64 ((outputOf i s s.inputSeq).getD k 0)) else none := by
  have he : effectOf i s = transformEffect (outputOf i s) s := by
    simp only [List.mem_cons, List.not_mem_nil, or_false] at hi
    rcases hi with rfl | rfl | rfl | rfl <;> rfl
  obtain ⟨hlen, -⟩ := outputOf_length_lt hi h
  cases hc : s.data.clean s.len.toNat
  · rw [he, transformEffect_poisoned hc, State.setData_data, Memory.read_poisonBelow]
    by_cases hk : k < s.len.toNat
    · simp [hk, Nat.not_le.2 hk]
    · simp [hk, Nat.le_of_not_lt hk]
  · rw [he, transformEffect_clean hc, State.setData_data, Memory.read_writeSeq]
    simp only [List.length_map, hlen]
    by_cases hk : k < s.len.toNat
    · simp [hk, Nat.not_le.2 hk, hlen]
    · simp [hk, Nat.le_of_not_lt hk]

end Sys2Proof.Machine
end

