-- ==== Sys2Proof/Laws/Flags.lean ====
section
/-! SUPPORT. Every bit of `CTRL` and `STATUS` read whole (spec/10_state.md R23, R25). -/

namespace Sys2Proof.Machine

/-- A one-bit field's only bit. -/
theorem getLsbD_bit (b : Bool) (k : Nat) : (bit b).getLsbD k = (decide (k = 0) && b) := by
  cases b <;> simp [bit, BitVec.getLsbD_one]

/-- The bits of `CTRL`. -/
theorem getLsbD_ctrlWord (s : State) (k : Nat) :
    s.ctrlWord.getLsbD k = if k = 1 then s.irqEn else if k = 2 then s.rtHost else false := by
  have h : s.ctrlWord.getLsbD k =
      BitVec.getLsbD (w := 61 + 1 + 1 + 1) (0#61 ++ bit s.rtHost ++ bit s.irqEn ++ 0#1) k := rfl
  rw [h]
  simp only [BitVec.getLsbD_append, getLsbD_bit]
  rcases k with _ | _ | _ | k <;> simp

/-- The bits of `STATUS`. -/
theorem getLsbD_statusWord (s : State) (k : Nat) :
    s.statusWord.getLsbD k =
      if k = 0 then s.busy else if k = 1 then s.done else if k = 2 then s.err else if k = 3 then s.mctxValid
      else if k < 8 then false else s.errcode.getLsbD (k - 8) := by
  have h : s.statusWord.getLsbD k = BitVec.getLsbD (w := 48 + 8 + 4 + 1 + 1 + 1 + 1)
      (0#48 ++ s.errcode ++ 0#4 ++ bit s.mctxValid ++ bit s.err ++ bit s.done ++ bit s.busy) k := rfl
  rw [h]
  simp only [BitVec.getLsbD_append, getLsbD_bit]
  rcases k with _ | _ | _ | _ | k
  · simp
  · simp
  · simp
  · simp
  · by_cases hk : k < 4
    · simp [hk, show k + 1 + 1 + 1 + 1 < 8 by omega]
    · simp [hk, show ¬ k + 1 + 1 + 1 + 1 < 8 by omega, show k + 1 + 1 + 1 + 1 - 8 = k - 4 by omega]
      exact fun hb => BitVec.lt_of_getLsbD hb

end Sys2Proof.Machine
end

