-- ==== Sys2Proof/Laws/HostBus.lean ====
section
/-! SUPPORT. Everything a host access can do (spec/20_memory.md R61 to R68). -/

namespace Sys2Proof.Machine

/-- A target that exists in an engine built with `p`. -/
def Target.present (p : Params) : Target → Prop
  | .reg _ => True
  | .rtab m => m < p.lmax
  | .data i => i < p.nmax

/-- The map gives back a target from its own offset (R20, R61). -/
theorem targetAt_offset {p : Params} (hp : p.wf = true) {t : Target} (ht : t.present p) :
    targetAt p t.offset = some t := by
  have h12 : p.lmax ≤ 12 := by
    simp only [Params.wf, Bool.and_eq_true, decide_eq_true_eq] at hp
    exact hp.2
  cases t with
  | reg r => cases r <;> rfl
  | rtab m =>
    have hm : m < p.lmax := ht
    have h1 : ¬ (256 + 8 * m < 96) := by omega
    have h2 : (256 + 8 * m < 256 + 8 * p.lmax) := by omega
    have h3 : (256 + 8 * m - 256) / 8 = m := by omega
    simp [Target.offset, targetAt, h1, h2]
  | data i =>
    have hi : i < p.nmax := ht
    have h1 : ¬ (32768 + 8 * i < 96) := by omega
    have h2 : ¬ (32768 + 8 * i < 256 + 8 * p.lmax) := by omega
    have h3 : (32768 + 8 * i < 32768 + 8 * p.nmax) := by omega
    simp [Target.offset, targetAt, h1, h2, h3]

/-- Only existing targets are mapped. -/
theorem present_of_targetAt {p : Params} {off : Nat} {t : Target} (h : targetAt p off = some t) : t.present p := by
  unfold targetAt at h
  split at h
  · obtain ⟨r, -, rfl⟩ := Option.map_eq_some_iff.1 h
    trivial
  · split at h
    · rename_i hr
      cases h
      simp only [Bool.and_eq_true, decide_eq_true_eq] at hr
      simp only [Target.present]
      omega
    · split at h
      · rename_i hd
        cases h
        simp only [Bool.and_eq_true, decide_eq_true_eq] at hd
        simp only [Target.present]
        omega
      · cases h

/-- An aligned mapped offset is the offset of its target. -/
theorem offset_of_targetAt {p : Params} {off : Nat} {t : Target} (ha : off % 8 = 0) (h : targetAt p off = some t) :
    t.offset = off := by
  unfold targetAt at h
  split at h
  · rename_i hlt
    obtain ⟨k, rfl⟩ : ∃ k, off = 8 * k := ⟨off / 8, by omega⟩
    have hk : k < 12 := by omega
    have h8 : 8 * k / 8 = k := by omega
    rw [h8] at h
    interval_cases k <;> (simp only [Reg.ofIndex, Option.map_some, Option.some.injEq] at h; subst h; rfl)
  · split at h
    · rename_i hr
      cases h
      simp only [Bool.and_eq_true, decide_eq_true_eq] at hr
      simp only [Target.offset]
      omega
    · split at h
      · rename_i hd
        cases h
        simp only [Bool.and_eq_true, decide_eq_true_eq] at hd
        simp only [Target.offset]
        omega
      · cases h

/-- An access that is not refused is legal, mapped, and neither a write to a read-only register nor forbidden while a
command is in flight. -/
theorem route_ok {a : Access} {s : State} {t : Target} :
    a.route s = .ok t ↔
      a.legal = true ∧ targetAt s.params a.off.toNat = some t ∧ ¬ (a.isWrite = true ∧ t.readOnly = true) ∧
        (s.busy = true → t.allowedBusy a.isWrite = true) := by
  unfold Access.route
  cases hl : a.legal
  · simp
  · cases ht : targetAt s.params a.off.toNat with
    | none => simp
    | some u =>
      simp only [Bool.not_true, Bool.false_eq_true, if_false, Option.some.injEq, true_and]
      by_cases hr : a.isWrite = true ∧ u.readOnly = true
      · have : (a.isWrite && u.readOnly) = true := by simpa using hr
        simp only [this, if_true]
        constructor
        · intro h; cases h
        · rintro ⟨rfl, hn, -⟩; exact absurd hr hn
      · have : (a.isWrite && u.readOnly) = false := by simpa using hr
        simp only [this, Bool.false_eq_true, if_false]
        by_cases hb : s.busy = true ∧ u.allowedBusy a.isWrite = false
        · have : (s.busy && !u.allowedBusy a.isWrite) = true := by simpa using hb
          simp only [this, if_true]
          constructor
          · intro h; cases h
          · rintro ⟨rfl, -, hn⟩; simp [hn hb.1] at hb
        · have hbf : (s.busy && !u.allowedBusy a.isWrite) = false := by
            cases h1 : s.busy <;> simp_all
          simp only [hbf, Bool.false_eq_true, if_false, Except.ok.injEq]
          constructor
          · rintro rfl
            refine ⟨rfl, hr, fun h1 => ?_⟩
            cases h2 : u.allowedBusy a.isWrite
            · exact absurd ⟨h1, h2⟩ hb
            · rfl
          · rintro ⟨rfl, -, -⟩
            rfl

/-- The 8-byte word that a mapped byte lies in is its target's. -/
theorem targetAt_window {p : Params} {b : Nat} {u : Target} (h : targetAt p b = some u) :
    u.offset ≤ b ∧ b < u.offset + 8 := by
  have hw : targetAt p (8 * (b / 8)) = some u := by
    unfold targetAt at h ⊢
    have e : 8 * (b / 8) / 8 = b / 8 := by omega
    rw [e]
    split at h
    · rw [if_pos (by omega)]
      exact h
    · rw [if_neg (by omega)]
      split at h
      · rename_i h2
        simp only [Bool.and_eq_true, decide_eq_true_eq] at h2
        rw [if_pos (by simp; omega), show (8 * (b / 8) - 0x100) / 8 = (b - 0x100) / 8 by omega]
        exact h
      · rename_i h2
        simp only [Bool.and_eq_true, decide_eq_true_eq] at h2
        rw [if_neg (by simp; omega)]
        split at h
        · rename_i h3
          simp only [Bool.and_eq_true, decide_eq_true_eq] at h3
          rw [if_pos (by simp; omega), show (8 * (b / 8) - 0x8000) / 8 = (b - 0x8000) / 8 by omega]
          exact h
        · cases h
  have := offset_of_targetAt (by omega) hw
  omega

/-- An access at a register's offset reaches that register, when nothing refuses it. -/
theorem route_reg {a : Access} {s : State} (r : Reg) (hw : a.width = 8) (ho : a.off.toNat = (Target.reg r).offset)
    (h3 : ¬ (a.isWrite = true ∧ (Target.reg r).readOnly = true))
    (h4 : s.busy = true → (Target.reg r).allowedBusy a.isWrite = true) : a.route s = .ok (.reg r) := by
  refine route_ok.2 ⟨?_, ?_, h3, h4⟩
  · simp only [Access.legal, hw, ho]
    cases r <;> rfl
  · rw [ho]
    cases r <;> rfl

/-- An access at a register's offset can reach no other target. -/
theorem target_reg {a : Access} {p : Params} {t : Target} (r : Reg) (ho : a.off.toNat = (Target.reg r).offset)
    (h : targetAt p a.off.toNat = some t) : t = .reg r := by
  rw [ho] at h
  cases r <;> (cases h; rfl)

/-- An accepted read returns the target's value. -/
theorem hostAccess_read {off : Offset} {w : Nat} {s : State} {t : Target} {v : Word}
    (hr : Access.route (.read off w) s = .ok t) (hv : s.readTarget t = .ok v) :
    hostAccess (.read off w) s = .next (s.receive v) := by
  unfold hostAccess
  rw [hr]
  simp only
  rw [hv]

/-- An accepted write writes the target. -/
theorem hostAccess_write {off : Offset} {w : Nat} {v : Word} {s : State} {t : Target}
    (hr : Access.route (.write off w v) s = .ok t) :
    hostAccess (.write off w v) s = .next (s.writeTarget t v) := by
  unfold hostAccess
  rw [hr]

/-- A refused access gets a bus error. -/
theorem hostAccess_refused {a : Access} {s : State} {c : BusErrorCause} (hr : a.route s = .error c) :
    hostAccess a s = .fault (.busError c a.off) := by
  unfold hostAccess
  rw [hr]

/-- A host access that answers a next state either writes the target or returns the target's value. -/
theorem hostAccess_next {a : Access} {s s' : State} (h : hostAccess a s = .next s') :
    ∃ t, a.route s = .ok t ∧
      ((∃ off w v, a = .write off w v ∧ s' = s.writeTarget t v) ∨
        (∃ off w v, a = .read off w ∧ s.readTarget t = .ok v ∧ s' = s.receive v)) := by
  unfold hostAccess at h
  split at h
  · cases h
  · rename_i t ht
    refine ⟨t, ht, ?_⟩
    cases a with
    | write off w v => exact .inl ⟨off, w, v, rfl, by cases h; rfl⟩
    | read off w =>
      simp only at h
      split at h
      · rename_i v hv
        exact .inr ⟨off, w, v, rfl, hv, by cases h; rfl⟩
      · cases h

/-- Only a poisoned `DATA` element has no value to return (R41). -/
theorem readTarget_error {s : State} {t : Target} {f : Fault} (h : s.readTarget t = .error f) :
    ∃ i, t = .data i ∧ s.data.read i = none ∧ f = .poisonedRead i := by
  cases t with
  | reg r => cases r <;> cases h
  | rtab m => cases h
  | data i =>
    simp only [State.readTarget] at h
    split at h
    · cases h
    · rename_i hn
      exact ⟨i, rfl, hn, by cases h; rfl⟩

/-- A host access stops only with a bus error or at a poisoned element; it is never refused by name. -/
theorem hostAccess_fault {a : Access} {s : State} {f : Fault} (h : hostAccess a s = .fault f) :
    (∃ cause, a.route s = .error cause ∧ f = .busError cause a.off) ∨
      (∃ i, a.route s = .ok (.data i) ∧ a.isWrite = false ∧ s.data.read i = none ∧ f = .poisonedRead i) := by
  unfold hostAccess at h
  split at h
  · rename_i c hc
    exact .inl ⟨c, hc, by cases h; rfl⟩
  · rename_i t ht
    cases a with
    | write off w v => cases h
    | read off w =>
      simp only at h
      split at h
      · cases h
      · rename_i g hg
        obtain ⟨i, rfl, hn, rfl⟩ := readTarget_error hg
        exact .inr ⟨i, ht, rfl, hn, by cases h; rfl⟩

/-! ## The host's steps -/

/-- A `STATUS` read is accepted in flight or not (R68). -/
theorem hostAccess_readStatus (s : State) : hostAccess (.read 0x0010 8) s = .next (s.receive s.statusWord) :=
  hostAccess_read (route_reg .status rfl rfl (by simp [Access.isWrite]) fun _ => rfl) rfl

/-- The value that ends a `wait` is that of an idle engine with `DONE = 1`. -/
theorem waitEnds_statusWord (s : State) : waitEnds s.statusWord = (!s.busy && s.done) := by
  rw [waitEnds, getLsbD_statusWord, getLsbD_statusWord]
  rfl

/-- One step of a `wait`: a read of `STATUS`, after which the `wait` is over or stays. It never stops the machine. -/
theorem hostStep_wait (rest : List HostEvent) (s : State) :
    hostStep .wait rest s =
      .next ((s.tookEvent (if !s.busy && s.done then rest else .wait :: rest)).receive s.statusWord) := by
  rw [← waitEnds_statusWord]
  exact hostAccess_readStatus _

end Sys2Proof.Machine
end

