-- ==== Sys2Proof/Laws/Montgomery.lean ====
section
/-! SUPPORT. What `MINV` and `REDC` compute (spec/43_montgomery.md R180, R181, R186). -/

namespace Sys2Proof.Machine

/-- A Newton step squares the error: `m * x' - 1 = -(m * x - 1)^2`. -/
theorem minvStep_error (m x : Word) : m * minvStep m x - 1 = -((m * x - 1) * (m * x - 1)) := by
  simp only [minvStep]
  ring

/-- The error of a guess, an odd word's own guess being right modulo 8. -/
theorem dvd_minv_start {m : Word} (h : m.toNat % 2 = 1) : (8 : Word) ∣ m * m - 1 := by
  have hm : m = 2 * (m >>> 1) + 1 := by
    apply BitVec.eq_of_toNat_eq
    have := m.isLt
    simp [BitVec.toNat_add, BitVec.toNat_mul, BitVec.toNat_ushiftRight, Nat.shiftRight_eq_div_pow]
    omega
  generalize m >>> 1 = k at hm
  have hk : (2 : Word) ∣ k * (k + 1) := by
    refine ⟨BitVec.ofNat 64 (k.toNat * (k.toNat + 1) / 2), ?_⟩
    have hev : 2 ∣ k.toNat * (k.toNat + 1) := (Nat.even_mul_succ_self k.toNat).two_dvd
    apply BitVec.eq_of_toNat_eq
    have h2 : 2 * (k.toNat * (k.toNat + 1) / 2) = k.toNat * (k.toNat + 1) := Nat.mul_div_cancel' hev
    simp only [BitVec.toNat_mul, BitVec.toNat_add, BitVec.toNat_ofNat]
    simp only [Nat.mul_mod_mod, show BitVec.toNat (1 : Word) = 1 from rfl, show BitVec.toNat (2 : Word) = 2 from rfl]
    rw [h2]
  obtain ⟨c, hc⟩ := hk
  refine ⟨c, ?_⟩
  calc m * m - 1 = 4 * (k * (k + 1)) := by rw [hm]; ring
    _ = 4 * (2 * c) := by rw [hc]
    _ = 8 * c := by ring

theorem minvStep_dvd {m x d : Word} (h : d ∣ m * x - 1) : d * d ∣ m * minvStep m x - 1 := by
  rw [minvStep_error]
  exact (mul_dvd_mul h h).neg_right

/-- R181: the product of an odd modulus and its `MINV` is 1 modulo `2^64`. -/
theorem mul_minv {m : Word} (h : m.toNat % 2 = 1) : m * minv m = 1 := by
  have h5 := minvStep_dvd (minvStep_dvd (minvStep_dvd (minvStep_dvd (minvStep_dvd (dvd_minv_start h)))))
  have hz : ((8 * 8 * (8 * 8) * (8 * 8 * (8 * 8)) * (8 * 8 * (8 * 8) * (8 * 8 * (8 * 8))) *
      (8 * 8 * (8 * 8) * (8 * 8 * (8 * 8)) * (8 * 8 * (8 * 8) * (8 * 8 * (8 * 8)))) : Word)) = 0 := by decide
  rw [hz, zero_dvd_iff] at h5
  exact sub_eq_zero.1 h5

/-- The same in numbers. -/
theorem toNat_mul_minv {m : Word} (h : m.toNat % 2 = 1) : (m.toNat * (minv m).toNat) % 2 ^ 64 = 1 := by
  have := congrArg BitVec.toNat (mul_minv h)
  simpa [BitVec.toNat_mul] using this

/-- R180, R186: with `m * minv = 1` modulo `R`, the signed difference of `REDC` times `R` is `a * b - q * m`. -/
theorem redc_difference {a b m minv : Nat} (hinv : (m * minv) % montgomeryRadix = 1) :
    let q := (a * b % montgomeryRadix * minv) % montgomeryRadix
    (a * b : Int) - q * m = ((a * b / montgomeryRadix : Nat) - (q * m / montgomeryRadix : Nat) : Int) * montgomeryRadix := by
  intro q
  have hlow : q * m % montgomeryRadix = a * b % montgomeryRadix := by
    have h1 : (q * m) ≡ a * b [MOD montgomeryRadix] := by
      calc q * m ≡ a * b % montgomeryRadix * minv * m [MOD montgomeryRadix] := (Nat.mod_modEq _ _).mul_right m
        _ = a * b % montgomeryRadix * (m * minv) := by ring
        _ ≡ a * b * 1 [MOD montgomeryRadix] := (Nat.mod_modEq _ _).mul (by
            rw [Nat.ModEq, hinv]; rfl)
        _ = a * b := by ring
    exact h1
  have e1 := Nat.div_add_mod (a * b) montgomeryRadix
  have e2 := Nat.div_add_mod (q * m) montgomeryRadix
  rw [hlow] at e2
  generalize a * b / montgomeryRadix = h at *
  generalize q * m / montgomeryRadix = g at *
  generalize a * b % montgomeryRadix = l at *
  have c1 : (montgomeryRadix : Int) * h + l = a * b := by exact_mod_cast e1
  have c2 : (montgomeryRadix : Int) * g + l = q * m := by exact_mod_cast e2
  rw [← c1, ← c2]
  ring

end Sys2Proof.Machine
end

