-- ==== Sys2Proof/Laws/PerInstr.lean ====
section
/-! SUPPORT. Facts about the commands as syntax, one lemma per constructor. -/

namespace Sys2Proof.Laws.Encoding

/-- The command's word is its opcode with zero reserved bits (R90), is well formed as a command word (R93), and its high
nibble names the unit: 0 the transform units and `NOP`, 1 the Montgomery multiplier, 2 the exponentiation unit (R92). -/
def Statement (i : Instr) : Prop :=
  commandRsv (encode i) = 0 ∧ commandOp (encode i) = opcode i ∧ commandWordWf (encode i) = true ∧ i.wf = true ∧
    (opcode i).extractLsb' 4 4 =
      (match i with
        | .montSetup | .montTo | .montMul | .montFrom => 1#4
        | .modexp | .rootchk => 2#4
        | .nop | .nttFwdIter | .nttInvIter | .nttFwdRec | .nttInvRec | .nttFwdNaive | .nttInvNaive => 0#4)

theorem nop : Statement .nop := by unfold Statement; decide
theorem nttFwdIter : Statement .nttFwdIter := by unfold Statement; decide
theorem nttInvIter : Statement .nttInvIter := by unfold Statement; decide
theorem nttFwdRec : Statement .nttFwdRec := by unfold Statement; decide
theorem nttInvRec : Statement .nttInvRec := by unfold Statement; decide
theorem nttFwdNaive : Statement .nttFwdNaive := by unfold Statement; decide
theorem nttInvNaive : Statement .nttInvNaive := by unfold Statement; decide
theorem montSetup : Statement .montSetup := by unfold Statement; decide
theorem montTo : Statement .montTo := by unfold Statement; decide
theorem montMul : Statement .montMul := by unfold Statement; decide
theorem montFrom : Statement .montFrom := by unfold Statement; decide
theorem modexp : Statement .modexp := by unfold Statement; decide
theorem rootchk : Statement .rootchk := by unfold Statement; decide

end Sys2Proof.Laws.Encoding
end

