-- ==== Sys2Proof/Laws/Reference.lean ====
section
/-! SUPPORT. When the modular inverse of spec/40_ntt_common.md R118 exists, and what it is. -/

namespace Sys2Proof.Machine

/-- The modular inverse of `a` modulo `N`: the one value below `N` whose product with `a` is 1 modulo `N`. -/
theorem modInverse_eq_some {a N y : Nat} : modInverse a N = some y ↔ y < N ∧ a * y % N = 1 % N := by
  constructor
  · intro h
    have h1 := List.find?_some h
    have h2 := List.mem_of_find?_eq_some h
    exact ⟨List.mem_range.1 h2, by simpa using h1⟩
  · rintro ⟨hy, he⟩
    have hs : (modInverse a N).isSome = true := by
      rw [modInverse, List.find?_isSome]
      exact ⟨y, List.mem_range.2 hy, by simpa using he⟩
    obtain ⟨z, hz⟩ := Option.isSome_iff_exists.1 hs
    have h1 : a * z % N = 1 % N := by simpa using List.find?_some hz
    have h2 : z < N := List.mem_range.1 (List.mem_of_find?_eq_some hz)
    rw [hz, Option.some.injEq]
    have h3 : z * (a * y) ≡ z * 1 [MOD N] := Nat.ModEq.mul_left z he
    have h4 : y * (a * z) ≡ y * 1 [MOD N] := Nat.ModEq.mul_left y h1
    have h5 : z ≡ y [MOD N] := by
      have e : z * (a * y) = y * (a * z) := by ring
      rw [e] at h3
      simpa using h3.symm.trans h4
    exact Nat.ModEq.eq_of_lt_of_lt h5 h2 hy

/-- It exists exactly when some number at all inverts `a` modulo `N`. -/
theorem modInverse_isSome {a N : Nat} (hN : 1 ≤ N) :
    (modInverse a N).isSome = true ↔ ∃ y, a * y % N = 1 % N := by
  rw [Option.isSome_iff_exists]
  constructor
  · rintro ⟨y, h⟩
    exact ⟨y, (modInverse_eq_some.1 h).2⟩
  · rintro ⟨y, h⟩
    refine ⟨y % N, modInverse_eq_some.2 ⟨Nat.mod_lt _ hN, ?_⟩⟩
    rw [Nat.mul_mod, Nat.mod_mod, ← Nat.mul_mod, h]

end Sys2Proof.Machine
end

