-- ==== Sys2Proof/Laws/Step.lean ====
section
/-! SUPPORT. Everything one step can do (spec/00_scope.md R10, spec/60_exceptions.md R244, R249). -/

namespace Sys2Proof.Machine

/-- A step is the engine's step, or the host's step for the oldest event. -/
theorem step_cases (s : State) :
    step s = engineStep s ∨ ∃ ev rest, s.port.queue = ev :: rest ∧ step s = hostStep ev rest s := by
  unfold step
  cases hq : s.port.queue with
  | nil => exact .inl rfl
  | cons ev rest =>
    simp only
    split
    · exact .inl rfl
    · exact .inr ⟨ev, rest, rfl, rfl⟩

/-- With no host event to come, the engine moves. -/
theorem step_of_no_event {s : State} (h : s.port.queue = []) : step s = engineStep s := by
  unfold step
  rw [h]

/-- An idle engine lets the host move. -/
theorem step_of_idle {s : State} (hi : s.pend = none) {ev : HostEvent} {rest : List HostEvent}
    (h : s.port.queue = ev :: rest) : step s = hostStep ev rest s := by
  unfold step
  simp [h, engineMoves, State.busy, hi]

/-- When the engine has its turn, it moves. -/
theorem step_of_turn {s : State} (h : engineMoves s = true) : step s = engineStep s := by
  unfold step
  split
  · rfl
  · rw [if_pos h]

/-- When the engine has not its turn and a host event is to come, the host moves. -/
theorem step_of_host {s : State} (h : engineMoves s = false) {ev : HostEvent} {rest : List HostEvent}
    (hq : s.port.queue = ev :: rest) : step s = hostStep ev rest s := by
  unfold step
  simp [hq, h]

/-- The `j`-th delay ends at a turn of the engine. -/
theorem engineFirst_delay (j : Nat) : engineFirst (j + Config.engineDelay j) = true := by
  simp only [engineFirst, List.any_eq_true, List.mem_range]
  exact ⟨j, by omega, by simp⟩

/-- Completion fairness (R280): a turn of the engine lies ahead of every host event. -/
theorem engineFirst_ahead (k : Nat) : ∃ j, k ≤ j ∧ engineFirst j = true :=
  ⟨k + Config.engineDelay k, by omega, engineFirst_delay k⟩

/-- The engine's step with nothing in flight changes nothing. -/
theorem engineStep_idle {s : State} (h : s.pend = none) : engineStep s = .next s := by simp [engineStep, h]

/-- The engine's step completes the command in flight. -/
theorem engineStep_busy {s : State} {p : Pending} (h : s.pend = some p) : engineStep s = completeCommand p.cmd s := by
  simp [engineStep, h]

/-- Completing a word runs its command, or reports why it selects none. -/
theorem completeCommand_cases (v : Word) (s : State) :
    (∃ i, decode v = .ok i ∧ completeCommand v s = exec i s) ∨
      (∃ r, decode v = .error r ∧ completeCommand v s = .next (s.failed (rejectCode r))) := by
  unfold completeCommand
  split
  · rename_i i hi
    exact .inl ⟨i, hi, rfl⟩
  · rename_i r hr
    exact .inr ⟨r, hr, rfl⟩

/-- The word a fetch places is what the very next step completes. -/
theorem step_withFetchWord (s : State) (nbits w : Nat) :
    step (s.withFetchWord nbits w) = completeCommand (tableWord nbits w) (s.withFetchWord nbits w) := by
  rw [step_of_no_event rfl]
  exact engineStep_busy (p := { cmd := tableWord nbits w, rtHost := s.rtHost }) rfl

/-- An induction over the states a run reaches: what holds after a power-on and every step keeps, holds in all. -/
theorem Reachable.induct {P : State → Prop} (start : ∀ p queue, p.wf = true → P (State.started p queue))
    (keep : ∀ s t, P s → step s = .next t → P t) {s : State} (h : Reachable s) : P s := by
  induction h with
  | started p legal queue => exact start p queue legal
  | after before moved ih => exact keep _ _ ih moved

end Sys2Proof.Machine
end

