-- ==== Sys2Proof/Tests/Slice0.lean ====
section
/-! SUPPORT. The model's own tests. Every expected value is a row of spec/95_test_vectors.md (its number is cited) or a
word written out from spec/30_encoding.md; and, for every statement with hypotheses, a state that meets them. -/

namespace Sys2Proof.Tests
open Sys2Proof.Machine

/-! ## Helpers -/

/-- The state after an outcome, when there is one. -/
def stateOf : Host.Outcome State Fault Refusal → Option State
  | .next s => some s
  | .fault _ => none
  | .refused _ => none

/-- The fault of an outcome, when there is one. -/
def faultOf : Host.Outcome State Fault Refusal → Option Fault
  | .fault f => some f
  | .next _ => none
  | .refused _ => none

/-- The reference engine with a transform's operands and the first elements of `DATA` written. -/
def ntt (N n w : Nat) (x : List Nat) : State :=
  { State.reset with mod := u64 N, len := u64 n, root := u64 w, data := Memory.writeSeq [] (x.map u64) }

/-- The same with `RT_HOST = 1` latched and `RTAB[1]`, `RTAB[2]` written. -/
def nttHost (N n w r1 r2 : Nat) (x : List Nat) : State :=
  { ntt N n w x with
    rtab := [0, u64 r1, u64 r2, 0, 0, 0, 0, 0, 0, 0], rtHost := true, pend := some { cmd := 3, rtHost := true } }

/-- The reference engine with scalar operands. -/
def scalar (N a b : Nat) : State := { State.reset with mod := u64 N, opa := u64 a, opb := u64 b }

/-- The reference engine with a Montgomery context and operands. -/
def mont (m inv a b : Nat) : State :=
  { State.reset with mctxMod := u64 m, mctxInv := u64 inv, mctxValid := true, opa := u64 a, opb := u64 b }

/-- The first `n` elements of `DATA` after an outcome; a poisoned one shows as none. -/
def dataAfter (n : Nat) (o : Host.Outcome State Fault Refusal) : Option (List (Option Word)) :=
  (stateOf o).map fun s => (List.range n).map s.data.read

/-- `STATUS` after an outcome. -/
def statusAfter (o : Host.Outcome State Fault Refusal) : Option Word := (stateOf o).map State.statusWord

/-- `RESULT` after an outcome. -/
def resultAfter (o : Host.Outcome State Fault Refusal) : Option Word := (stateOf o).map State.result

/-- The elements of a written sequence. -/
def written (x : List Nat) : Option (List (Option Word)) := some (x.map fun v => some (u64 v))

/-! ## Well-formedness: the checks refuse ill-formed terms -/

theorem test_params_lmax_zero_ill_formed : Params.wf { lmax := 0, hasModexp := true } = false := by decide
theorem test_params_lmax_thirteen_ill_formed : Params.wf { lmax := 13, hasModexp := true } = false := by decide
theorem test_params_reference_well_formed : Params.wf Params.reference = true := by decide
theorem test_word_unassigned_opcode_ill_formed : commandWordWf 0x07 = false := by decide
theorem test_word_reserved_bit_ill_formed : commandWordWf 0x8000000000000001 = false := by decide
theorem test_word_modexp_well_formed : commandWordWf 0x20 = true := by decide
theorem test_buffer_out_of_order_ill_formed : Memory.wf [(1, 5), (0, 6)] = false := by decide
theorem test_buffer_index_past_the_end : Memory.below [(1024, 5)] 1024 = false := by decide

/-! ## Decoding: words written out bit by bit from R90 and R92 -/

theorem test_decode_nop :
    decode 0b0000000000000000000000000000000000000000000000000000000000000000#64 = .ok .nop := by decide
theorem test_decode_ntt_fwd_iter :
    decode 0b0000000000000000000000000000000000000000000000000000000000000001#64 = .ok .nttFwdIter := by decide
theorem test_decode_ntt_inv_iter :
    decode 0b0000000000000000000000000000000000000000000000000000000000000010#64 = .ok .nttInvIter := by decide
theorem test_decode_ntt_fwd_rec :
    decode 0b0000000000000000000000000000000000000000000000000000000000000011#64 = .ok .nttFwdRec := by decide
theorem test_decode_ntt_inv_rec :
    decode 0b0000000000000000000000000000000000000000000000000000000000000100#64 = .ok .nttInvRec := by decide
theorem test_decode_ntt_fwd_naive :
    decode 0b0000000000000000000000000000000000000000000000000000000000000101#64 = .ok .nttFwdNaive := by decide
theorem test_decode_ntt_inv_naive :
    decode 0b0000000000000000000000000000000000000000000000000000000000000110#64 = .ok .nttInvNaive := by decide
theorem test_decode_mont_setup :
    decode 0b0000000000000000000000000000000000000000000000000000000000010000#64 = .ok .montSetup := by decide
theorem test_decode_mont_to :
    decode 0b0000000000000000000000000000000000000000000000000000000000010001#64 = .ok .montTo := by decide
theorem test_decode_mont_mul :
    decode 0b0000000000000000000000000000000000000000000000000000000000010010#64 = .ok .montMul := by decide
theorem test_decode_mont_from :
    decode 0b0000000000000000000000000000000000000000000000000000000000010011#64 = .ok .montFrom := by decide
theorem test_decode_modexp :
    decode 0b0000000000000000000000000000000000000000000000000000000000100000#64 = .ok .modexp := by decide
theorem test_decode_rootchk :
    decode 0b0000000000000000000000000000000000000000000000000000000000100001#64 = .ok .rootchk := by decide

/-- E6, E7, E9: an unassigned opcode is illegal whatever the reserved bits. -/
theorem test_decode_rejects_unassigned :
    ([0x07, 0x107, 0x0F, 0x14, 0x1F, 0x22, 0xFF].map fun w => decode (u64 w)) =
      List.replicate 7 (.error .illegalOpcode) := by decide

/-- E2, E5, E10: an assigned opcode with a reserved bit set. -/
theorem test_decode_rejects_reserved_bits :
    ([0x100, 0x105, 0x8000000000000001].map fun w => decode (u64 w)) = List.replicate 3 (.error .reservedBits) := by
  decide

/-! ## Commands, run as the first command after a reset by a step (E1 to E12) -/

theorem test_step_nop : statusAfter (step (State.reset.withFetchWord 64 0x00)) = some 0x2 := by decide
theorem test_step_reserved_bits : statusAfter (step (State.reset.withFetchWord 64 0x100)) = some 0x0206 := by decide
theorem test_step_illegal : statusAfter (step (State.reset.withFetchWord 64 0x107)) = some 0x0106 := by decide
theorem test_step_fwd_naive : statusAfter (step (State.reset.withFetchWord 64 0x05)) = some 0x0306 := by decide
theorem test_step_inv_naive : statusAfter (step (State.reset.withFetchWord 64 0x06)) = some 0x0306 := by decide
/-- P3, line 1: `BAD_MODULUS`, since `MOD = 0` after reset. -/
theorem test_step_fwd_iter_at_reset : statusAfter (step (State.reset.withFetchWord 64 0x01)) = some 0x0406 := by decide
/-- M23. -/
theorem test_step_mont_mul_at_reset : statusAfter (step (State.reset.withFetchWord 64 0x12)) = some 0x0706 := by decide

/-! ## Iterative transforms -/

/-- I1. -/
theorem test_fwd_iter : dataAfter 4 (exec .nttFwdIter (ntt 17 4 4 [1, 2, 3, 4])) = written [10, 7, 15, 6] := by decide
/-- I7: inputs at and above the modulus. -/
theorem test_fwd_iter_unreduced_input :
    dataAfter 4 (exec .nttFwdIter (ntt 17 4 4 [17, 18, 2 ^ 64 - 1, 35])) = written [2, 0, 15, 0] := by decide
/-- I2. -/
theorem test_inv_iter : dataAfter 4 (exec .nttInvIter (ntt 17 4 4 [10, 7, 15, 6])) = written [1, 2, 3, 4] := by decide
/-- I11: a root of the wrong order. -/
theorem test_inv_iter_wrong_order :
    dataAfter 4 (exec .nttInvIter (ntt 17 4 3 [10, 9, 15, 4])) = written [1, 7, 3, 16] := by decide

/-! ## Recursive transforms -/

/-- C4: host-supplied level roots that are not chained. -/
theorem test_fwd_rec_host_roots :
    dataAfter 8 (exec .nttFwdRec (nttHost 520241 8 118272 520240 494265 [4, 1, 4, 2, 1, 3, 5, 6])) =
      written [26, 110662, 416333, 26381, 2, 461537, 103900, 441914] := by decide
/-- C6: a level root out of range. -/
theorem test_fwd_rec_level_root_range :
    statusAfter (exec .nttFwdRec (nttHost 17 4 4 17 0 [1, 2, 3, 4])) = some 0x0606 := by decide
/-- C5. -/
theorem test_inv_rec_host_roots :
    dataAfter 8 (exec .nttInvRec
      (nttHost 520241 8 118272 520240 494265 [26, 110662, 416333, 26381, 2, 461537, 103900, 441914])) =
      written [4, 51956, 5, 25978, 1, 468293, 4, 494267] := by decide
/-- I9 by the recursive transform (§2.2). -/
theorem test_inv_rec_root_zero :
    dataAfter 4 (exec .nttInvRec (ntt 17 4 0 [1, 2, 3, 4])) = written [11, 8, 8, 8] := by decide

/-! ## Montgomery multiplier -/

/-- M4: `MCTX_INV` of `2^64 - 59`. -/
theorem test_mont_setup_inverse :
    (stateOf (exec .montSetup (scalar (2 ^ 64 - 59) 0 0))).map (fun s => (s.mctxMod, s.mctxInv, s.statusWord)) =
      some (0xFFFFFFFFFFFFFFC5, 0x34115B1E5F75270D, 0xA) := by decide
/-- M7: a failed setup leaves the context. -/
theorem test_mont_setup_failure_keeps_context :
    (stateOf (exec .montSetup { mont 520241 0xE0954B039BC168D1 0 0 with mod := 4 })).map
      (fun s => (s.mctxMod, s.mctxInv, s.statusWord)) = some (520241, 0xE0954B039BC168D1, 0x040E) := by decide
/-- M9. -/
theorem test_mont_to : resultAfter (exec .montTo (mont 520241 0xE0954B039BC168D1 1234 0)) = some 287528 := by decide
/-- M13: an operand above the modulus. -/
theorem test_mont_to_largest :
    resultAfter (exec .montTo (mont 520241 0xE0954B039BC168D1 (2 ^ 64 - 1) 0)) = some 368464 := by decide
/-- M14: the negative branch of the reduction. -/
theorem test_mont_mul_negative_branch :
    resultAfter (exec .montMul (mont 520241 0xE0954B039BC168D1 287528 492471)) = some 67726 := by decide
/-- M19: a result above the modulus. -/
theorem test_mont_mul_not_reduced :
    resultAfter (exec .montMul (mont 520241 0xE0954B039BC168D1 (2 ^ 64 - 1) (2 ^ 64 - 1))) =
      some 0xFFFFFFFFFFF90932 := by decide
/-- M15. -/
theorem test_mont_from :
    resultAfter (exec .montFrom (mont 520241 0xE0954B039BC168D1 67726 0)) = some 243519 := by decide
/-- M18: an operand above the modulus is reduced. -/
theorem test_mont_from_largest :
    resultAfter (exec .montFrom (mont 520241 0xE0954B039BC168D1 (2 ^ 64 - 1) 0)) = some 456397 := by decide

/-! ## Exponentiation unit -/

/-- X5: the largest exponent. -/
theorem test_modexp_largest_exponent :
    resultAfter (exec .modexp (scalar (2 ^ 64 - 59) 2 (2 ^ 64 - 1))) = some 576460752303423488 := by decide +kernel
/-- X2: `0^0 = 1`. -/
theorem test_modexp_zero_to_the_zero : resultAfter (exec .modexp (scalar 17 0 0)) = some 1 := by decide
/-- E11: the unit is absent. -/
theorem test_modexp_absent :
    statusAfter (exec .modexp { scalar 17 3 16 with params := { lmax := 10, hasModexp := false } }) =
      some 0x0306 := by decide
/-- X13: a length above `NMAX`. -/
theorem test_rootchk_long :
    (stateOf (exec .rootchk (ntt 17 (2 ^ 63) 3 []))).map (fun s => (s.result, s.statusWord)) = some (0, 0x2) := by decide +kernel
/-- X14. -/
theorem test_rootchk_right_order : resultAfter (exec .rootchk (ntt 520241 8 118272 [])) = some 1 := by decide

/-! ## Errors and their priority -/

/-- I22: the modulus before the length; I23: the length before the root; I20: `LEN > NMAX`. -/
theorem test_error_priority :
    [ntt 4 3 99 [], ntt 17 3 99 [], ntt 17 2048 4 [], ntt 17 4 17 []].map (fun s => statusAfter (exec .nttFwdIter s)) =
      [some 0x0406, some 0x0506, some 0x0506, some 0x0606] := by decide

/-- R41: a poisoned input element poisons the output. -/
theorem test_poisoned_input :
    dataAfter 4 (exec .nttFwdIter (ntt 17 4 4 [1, 2, 3])) = some [none, none, none, none] := by decide

/-! ## Bus accesses (B1 to B16) -/

/-- B1, B2: `ID`, and `CMD` reading 0. -/
theorem test_read_id_and_cmd :
    [hostAccess (.read 0x0000 8) State.reset, hostAccess (.read 0x0018 8) State.reset].map
      (fun o => (stateOf o).map fun s => s.port.received) = [some [0x4552595800070A0F], some [0]] := by decide
/-- B3 to B8: refused accesses. -/
theorem test_refused_accesses :
    ([.write 0x0048 8 5, .read 0x0060 8, .read 0x0150 8, .read 0xA000 8, .read 0x8004 8, .read 0x8000 4].map
      fun a => faultOf (hostAccess a State.reset)) =
      [some (.busError .readOnly 0x0048), some (.busError .unmapped 0x0060), some (.busError .unmapped 0x0150),
        some (.busError .unmapped 0xA000), some (.busError .illegalAccess 0x8004),
        some (.busError .illegalAccess 0x8000)] := by decide
/-- B9 to B11: refused while a command is in flight. -/
theorem test_refused_while_busy :
    ([.read 0x8000 8, .write 0x0020 8 17, .write 0x0018 8 1].map fun a => faultOf (hostAccess a (nttHost 17 4 4 0 0 []))) =
      [some (.busError .busy 0x8000), some (.busError .busy 0x0020), some (.busError .busy 0x0018)] := by decide
/-- B12: `STATUS` while busy. -/
theorem test_read_status_while_busy :
    (stateOf (hostAccess (.read 0x0010 8) (nttHost 17 4 4 0 0 []))).map (fun s => s.port.received) = some [0x1] := by
  decide
/-- B13, B14: the W1C bits, from `STATUS = 0x0506`. -/
theorem test_status_w1c :
    [0x2, 0x4].map (fun v => statusAfter (hostAccess (.write 0x0010 8 v)
      { State.reset with done := true, err := true, errcode := 5 })) = [some 0x0504, some 0x2] := by decide
/-- B15, B16: a `CTRL` write, and a soft reset. -/
theorem test_ctrl_write :
    [0xFFFFFFFFFFFFFFF6, 0x7].map (fun v => (stateOf (hostAccess (.write 0x0008 8 v) State.reset)).map State.ctrlWord) =
      [some 0x6, some 0x0] := by decide
/-- P5, reset first: the transform is abandoned and `DATA` poisoned. -/
theorem test_soft_reset_aborts_transform :
    (stateOf (hostAccess (.write 0x0008 8 0x1) ((ntt 17 4 4 [1, 2, 3, 4]).accept 0x1))).map
      (fun s => (s.statusWord, s.data, s.pend)) = some (0, [], none) := by decide
/-- A `STATUS` read of a `wait` while the command is in flight returns `BUSY = 1`, and the `wait` stays (R99). -/
theorem test_wait_reads_busy_status :
    (stateOf (hostStep .wait [] ((ntt 17 4 4 [1, 2, 3, 4]).accept 0x1))).map
      (fun t => (t.port.received, t.port.queue)) = some ([0x1], [.wait]) := by decide
/-- The read after completion ends it (P1, line 7). -/
theorem test_wait_ends :
    ((stateOf (engineStep ((ntt 17 4 4 [1, 2, 3, 4]).accept 0x1))).bind fun s => stateOf (hostStep .wait [] s)).map
      (fun t => (t.port.received, t.port.queue)) = some ([0x2], []) := by decide

/-! ## Reference functions (§1.1) -/

theorem test_find_modulus : findModulus 255 8 100 = some 520241 := by decide +kernel
theorem test_find_primitive_root : findPrimitiveRoot 4 17 = some 4 := by decide
theorem test_naive_fwd : naiveFwd [1, 2, 3, 4] 17 4 = [10, 7, 15, 6] := by decide
theorem test_naive_inv : naiveInv [10, 7, 15, 6] 17 4 = some [1, 2, 3, 4] := by decide
/-- Neither 3 nor a length of 3 has an inverse modulo 9. -/
theorem test_naive_inv_undefined : naiveInv [1, 2] 9 3 = none ∧ naiveInv [1, 2, 3] 9 4 = none := by decide

/-- P1, lines 2 to 8: the accesses of a forward transform. -/
theorem test_api_transform : apiTransform .nttFwdIter [1, 2, 3, 4] 17 4 =
    [.access (.write 0x0020 8 17), .access (.write 0x0030 8 4), .access (.write 0x0028 8 4),
      .access (.write 0x8000 8 1), .access (.write 0x8008 8 2), .access (.write 0x8010 8 3),
      .access (.write 0x8018 8 4), .access (.write 0x0018 8 1), .wait, .access (.read 0x8000 8),
      .access (.read 0x8008 8), .access (.read 0x8010 8), .access (.read 0x8018 8)] := by decide
/-- The level roots of order 2 and 4 modulo 17. -/
theorem test_rederived_roots : rederivedRoots 3 17 = some [16, 4] := by decide

/-! ## Witnesses: concrete states that meet the hypotheses of the statements -/

/-- A length-4 transform's operands and input, with a command word in flight. -/
def inFlight (cmd : Word) (rt : Bool) : State := { ntt 17 4 4 [1, 2, 3, 4] with pend := some { cmd := cmd, rtHost := rt } }

/-- The state with host events to come. -/
def withQueue (q : List HostEvent) (s : State) : State := { s with port := { s.port with queue := q } }

/-- A Montgomery context modulo 17, and operands. -/
def mont17 : State := mont 17 0xF0F0F0F0F0F0F0F1 3 5

/-- DecodeOfEncodeGivesTheCommand. -/
theorem witness_wf_command : Instr.wf .rootchk = true := by decide

/-- IllegalOpcodeCompletesWithCodeOne: the ends of each range. -/
theorem witness_illegal_opcode : ∀ w ∈ [0x07, 0x0F, 0x14, 0x1F, 0x22, 0xFF, 0x107],
    (inFlight (u64 w) false).pend = some { cmd := u64 w, rtHost := false } ∧
      ((0x07 ≤ (u64 w).toNat % 256 ∧ (u64 w).toNat % 256 ≤ 0x0F) ∨
        (0x14 ≤ (u64 w).toNat % 256 ∧ (u64 w).toNat % 256 ≤ 0x1F) ∨ 0x22 ≤ (u64 w).toNat % 256) := by decide

/-- ReservedBitsCompleteWithCodeTwo: the ends of each range, with the lowest and the highest reserved bit set. -/
theorem witness_reserved_bits : ∀ w ∈ [0x100, 0x106, 0x110, 0x113, 0x120, 0x8000000000000021],
    ((u64 w).toNat % 256 ≤ 0x06 ∨ (0x10 ≤ (u64 w).toNat % 256 ∧ (u64 w).toNat % 256 ≤ 0x13) ∨
      (u64 w).toNat % 256 = 0x20 ∨ (u64 w).toNat % 256 = 0x21) ∧ (u64 w).toNat / 256 ≠ 0 := by decide

/-- AbsentUnitsCompleteWithCodeThree. -/
theorem witness_unit_absent :
    (State.resetWith { lmax := 1, hasModexp := false }).params.hasModexp = false := by decide

/-- StepRunsTheDecodedCommand: with no host event to come, and with a wait at a turn of the engine. -/
theorem witness_engine_turn :
    let s := inFlight 0x21 false
    let s' : State := { s with port := { s.port with queue := [.wait], turn := 0 + Config.engineDelay 0 } }
    s.pend = some { cmd := 0x21, rtHost := false } ∧ decode 0x21 = .ok .rootchk ∧ s.port.queue = [] ∧
      s'.port.queue ≠ [] ∧ engineMoves s' = true := by
  refine ⟨rfl, by decide, rfl, by simp, ?_⟩
  show (true && engineFirst (0 + Config.engineDelay 0)) = true
  rw [engineFirst_delay]
  rfl

/-- WaitReadsStatusUntilTheCommandCompletes: an idle engine with `DONE = 1`, one with `DONE = 0`, and a busy one. -/
theorem witness_wait :
    let idle := withQueue [.wait] State.reset
    let done : State := { idle with done := true }
    idle.port.queue = .wait :: [] ∧ idle.pend = none ∧ idle.done = false ∧ done.done = true ∧
      (withQueue [.wait] (inFlight 1 false)).port.queue = .wait :: [] ∧
      (withQueue [.wait] (inFlight 1 false)).pend ≠ none := by decide

/-- EveryStepIsOneAgentsMove, PolledCommandCompletes: an idle engine, and a busy one with two polls to come. -/
theorem witness_agents :
    State.reset.pend = none ∧ State.reset.port.queue = [] ∧
      (inFlight 1 false).pend ≠ none ∧
      (withQueue (List.replicate 2 (.access (.read 0x0010 8))) (inFlight 1 false)).port.queue =
        List.replicate 2 (.access (.read 0x0010 8)) := by decide

/-- OnlyAHostAccessStopsTheMachine: a step that faults, by a bus error and at a poisoned element. -/
theorem witness_step_faults :
    faultOf (step (withQueue [.access (.read 0x0060 8)] State.reset)) = some (.busError .unmapped 0x0060) ∧
      faultOf (step (withQueue [.access (.read 0x8000 8)] State.reset)) = some (.poisonedRead 0) := by decide

/-- PowerOnSatisfiesTheInvariant, IdReadsTheParameters: the least and the greatest `LMAX`. -/
theorem witness_params : Params.wf { lmax := 1, hasModexp := false } = true ∧
    Params.wf { lmax := 12, hasModexp := true } = true := by decide

/-- The invariant holds of an idle engine with a context. -/
theorem witness_invariant_context : mont17.Wf ∧ mont17.mctxValid = true ∧ 3 ≤ mont17.mctxMod.toNat := by
  refine ⟨⟨?_, ?_, ?_, ?_, ?_, ?_, ?_, ?_, ?_, ?_⟩, ?_, ?_⟩ <;> decide

/-- The invariant holds of an engine with a transform in flight. -/
theorem witness_invariant_busy : (inFlight 1 false).Wf ∧ (inFlight 1 false).pend ≠ none := by
  refine ⟨⟨?_, ?_, ?_, ?_, ?_, ?_, ?_, ?_, ?_, ?_⟩, ?_⟩ <;> decide

/-- EveryStepKeepsTheInvariant, ParametersNeverChange: a step with a next state. -/
theorem witness_step_next : ∃ t, step (inFlight 1 false) = .next t ∧ t.done = true := by
  cases h : step (inFlight 1 false) with
  | next t =>
    refine ⟨t, rfl, ?_⟩
    have h2 : (stateOf (step (inFlight 1 false))).map State.done = some true := by decide
    rw [h] at h2
    simpa [stateOf] using h2
  | fault f =>
    have h2 : faultOf (step (inFlight 1 false)) = none := by decide
    rw [h] at h2
    cases h2
  | refused r =>
    have h2 : (stateOf (step (inFlight 1 false))).isSome = true := by decide
    rw [h] at h2
    cases h2

/-- BusyEngineAcceptsOnlyControlAndStatus, both clauses. -/
theorem witness_busy_accesses :
    (inFlight 1 false).pend ≠ none ∧ Access.AllowedWhileBusy (.read 0x0010 8) ∧
      ¬ Access.AllowedWhileBusy (.read 0x0018 8) := by
  refine ⟨by decide, .inr (.inr (.inl rfl)), ?_⟩
  simp [Access.AllowedWhileBusy]

/-- ReadsHaveNoSideEffect: a read that answers a next state. -/
theorem witness_read : State.reset.pend = none ∧
    (stateOf (hostAccess (.read 0x0020 8) (scalar 17 0 0))).map (fun t => t.port.received) = some [17] := by decide

/-- IdleReadsReturnTheHeldValueOrFaultWhenPoisoned: the ends of `RTAB` and `DATA`, a written element and a poisoned one. -/
theorem witness_idle_reads :
    State.reset.params.wf = true ∧ State.reset.pend = none ∧ 0 < State.reset.params.lmax ∧ 9 < State.reset.params.lmax ∧
      0 < 2 ^ State.reset.params.lmax ∧ 1023 < 2 ^ State.reset.params.lmax ∧ State.reset.data.read 1023 = none ∧
      (ntt 17 4 4 [1, 2, 3, 4]).pend = none ∧ (ntt 17 4 4 [1, 2, 3, 4]).data.read 0 = some 1 := by decide

/-- StoringWriteIsReadBackAndChangesNothingElse: the first and the last offset of each range. -/
theorem witness_storage_offsets :
    State.reset.params.wf = true ∧ State.reset.rtab.length = State.reset.params.lmax ∧ State.reset.pend = none ∧
      ∀ off ∈ [0x0020, 0x0040, 0x0100, 0x0148, 0x8000, 0x9FF8], StorageOffset State.reset.params off := by
  refine ⟨by decide, by decide, by decide, ?_⟩
  intro off h
  simp only [List.mem_cons, List.not_mem_nil, or_false] at h
  rcases h with rfl | rfl | rfl | rfl | rfl | rfl
  · exact .inl ⟨0, by decide, rfl⟩
  · exact .inl ⟨4, by decide, rfl⟩
  · exact .inr (.inl ⟨0, by decide, rfl⟩)
  · exact .inr (.inl ⟨9, by decide, rfl⟩)
  · exact .inr (.inr ⟨0, by decide, rfl⟩)
  · exact .inr (.inr ⟨1023, by decide, rfl⟩)

/-- CtrlWriteSetsItsTwoFields, SoftResetClearsAndAborts, InterruptFollowsEnableAndDone: the written values, and the words
in flight at the ends of the transform opcodes. -/
theorem witness_ctrl_values :
    (6 : Word).getLsbD 0 = false ∧ (4 : Word).getLsbD 1 = false ∧ (7 : Word).getLsbD 0 = true ∧
      (2 : Word).getLsbD 1 = true ∧
      (∀ w ∈ [0x001, 0x104], (u64 w).toNat % 256 ∈ [1, 2, 3, 4]) ∧
      ∀ w ∈ [0x000, 0x005], (u64 w).toNat % 256 ∉ [1, 2, 3, 4] := by decide

/-- FailedCommandWritesOnlyStatus: a command that fails, by exec and by the engine's step. -/
theorem witness_failing_command :
    (inFlight 7 false).err = false ∧
      (stateOf (exec .montTo (inFlight 7 false))).map State.err = some true ∧
      (stateOf (engineStep (inFlight 7 false))).map State.err = some true := by decide

/-- Every command answers a next state, from a state with a command in flight: CommandWritesOnlyWhatTheTableLists,
CommandChangesOnlyItsBytes, ContextAndModulusAreIndependent, CommandInFlightIgnoresControlChanges. -/
theorem witness_commands_next :
    ∀ i ∈ [Instr.nop, .nttFwdIter, .nttInvRec, .montSetup, .montMul, .rootchk],
      (stateOf (exec i { inFlight 1 false with mctxMod := 17, mctxInv := 0xF0F0F0F0F0F0F0F1, mctxValid := true })).map
        (fun t => (t.done, t.err)) = some (true, false) := by decide

/-- TransformErrorsInPriorityOrder and ScalarOperandErrorsInPriorityOrder, the operand clauses: an even modulus; a length
that is no power of two, and one above `NMAX`; a root equal to the modulus. -/
theorem witness_operand_errors :
    ¬ (ntt 4 3 99 []).ModulusOk ∧
      ((ntt 17 3 99 []).ModulusOk ∧ ¬ ∃ L, (ntt 17 3 99 []).len.toNat = 2 ^ L) ∧
      ((ntt 17 2048 4 []).ModulusOk ∧ ¬ (ntt 17 2048 4 []).len.toNat ≤ 2 ^ (ntt 17 2048 4 []).params.lmax) ∧
      ((ntt 17 4 17 []).ModulusOk ∧ (∃ L, (ntt 17 4 17 []).len.toNat = 2 ^ L) ∧
        (ntt 17 4 17 []).len.toNat ≤ 2 ^ (ntt 17 4 17 []).params.lmax ∧
        (ntt 17 4 17 []).mod.toNat ≤ (ntt 17 4 17 []).root.toNat) ∧
      (ntt 17 4 17 []).params.hasModexp = true := by
  refine ⟨by unfold State.ModulusOk; decide, ⟨by unfold State.ModulusOk; decide, ?_⟩,
    ⟨by unfold State.ModulusOk; decide, by decide⟩,
    ⟨by unfold State.ModulusOk; decide, ⟨2, by decide⟩, by decide, by decide⟩, by decide⟩
  rintro ⟨L, h⟩
  have h3 : 3 = 2 ^ L := h
  rcases L with _ | _ | L
  · omega
  · omega
  · rw [pow_succ, pow_succ] at h3
    omega

/-- TransformErrorsInPriorityOrder, the last clause: a level root equal to the modulus. -/
theorem witness_level_root_error :
    (nttHost 17 4 4 17 0 [1, 2, 3, 4]).TransformReady 2 ∧
      (nttHost 17 4 4 17 0 [1, 2, 3, 4]).pend = some { cmd := 3, rtHost := true } ∧
      ¬ (nttHost 17 4 4 17 0 [1, 2, 3, 4]).LevelRootsReady 2 := by
  refine ⟨by unfold State.TransformReady State.ModulusOk; decide, rfl, ?_⟩
  intro h
  have := h 1 (by decide) (by decide)
  revert this
  decide

/-- MontgomeryWithoutContextFails. -/
theorem witness_no_context : State.reset.mctxValid = false := by decide

/-- MontSetupBuildsTheInverse, ModexpIsTheModularPower: the least and the greatest modulus. -/
theorem witness_modulus :
    (scalar 3 0 0).ModulusOk ∧ (scalar (2 ^ 64 - 1) 0 0).ModulusOk ∧ (scalar 3 0 0).params.hasModexp = true := by
  unfold State.ModulusOk
  decide

/-- RootchkDecidesTheOrder: the least and the greatest length. -/
theorem witness_rootchk :
    (ntt 17 (2 ^ 63) 3 []).ModulusOk ∧ (ntt 17 (2 ^ 63) 3 []).len.toNat = 2 ^ 63 ∧ (ntt 17 1 0 []).len.toNat = 2 ^ 0 ∧
      (ntt 17 (2 ^ 63) 3 []).root.toNat < (ntt 17 (2 ^ 63) 3 []).mod.toNat ∧
      orderOf ((ntt 17 4 4 []).root.toNat : ZMod (ntt 17 4 4 []).mod.toNat) = 2 ^ 2 ∧
      orderOf ((ntt 17 1 0 []).root.toNat : ZMod (ntt 17 1 0 []).mod.toNat) ≠ 2 ^ 0 := by
  refine ⟨by unfold State.ModulusOk; decide, by decide, by decide, by decide, ?_, ?_⟩
  · show orderOf ((4 : Nat) : ZMod 17) = 2 ^ 2
    exact orderOf_eq_prime_pow (by decide) (by decide)
  · show orderOf ((0 : Nat) : ZMod 17) ≠ 2 ^ 0
    rw [pow_zero, Ne, orderOf_eq_one_iff]
    decide

/-- HostRootsMeet asks nothing of the iterative transforms: a latched `RT_HOST` of 1 with a level root out of range, and no
command in flight. PoisonedInputPoisonsTheOutput, ForwardTransformsAreTheNumberTheoreticTransform,
InverseTransformsAreTheNaiveInverse, InverseTransformsUndoForward. -/
theorem witness_iterative_host_roots :
    (nttHost 17 4 4 99 0 [1, 2, 3, 4]).pend = some { cmd := 3, rtHost := true } ∧
      (∀ P, (nttHost 17 4 4 99 0 [1, 2, 3, 4]).HostRootsMeet .nttFwdIter P) ∧
      (ntt 17 4 4 [1, 2, 3]).pend = none ∧ (∀ P, (ntt 17 4 4 [1, 2, 3]).HostRootsMeet .nttInvIter P) := by
  exact ⟨rfl, fun _ h => absurd h (by decide), rfl, fun _ h => absurd h (by decide)⟩

/-- The same premise of a recursive transform: a latched `RT_HOST` of 0, and of 1 with the chained level root. -/
theorem witness_recursive_host_roots :
    (∀ P, (inFlight 3 false).HostRootsMeet .nttFwdRec P) ∧
      (nttHost 17 4 4 16 0 [1, 2, 3, 4]).HostRootsMeet .nttInvRec
        ((nttHost 17 4 4 16 0 [1, 2, 3, 4]).LevelRootsChained 2) := by
  refine ⟨fun P _ => ⟨_, rfl, fun h => ?_⟩, fun _ => ⟨_, rfl, fun _ m h1 h2 => ?_⟩⟩
  · cases h
  · obtain rfl : m = 1 := by omega
    decide

/-- The hypotheses of the statements about a transform's output: checked operands, written input, a command in flight
whose latched `RT_HOST` is 0. -/
theorem witness_transform :
    (inFlight 3 false).pend = some { cmd := 3, rtHost := false } ∧ (inFlight 3 false).TransformReady 2 ∧
      (inFlight 3 false).InputWritten := by
  refine ⟨rfl, by unfold State.TransformReady State.ModulusOk; decide, ?_⟩
  unfold State.InputWritten
  decide

/-- The same with `RT_HOST = 1` and the chained level root, a prime modulus and a root of order 4:
RecursiveTransformsWriteTheirOutput, ForwardTransformsAreTheNumberTheoreticTransform, InverseTransformsUndoForward,
LevelOneRootNeverMatters. -/
theorem witness_transform_host_roots :
    let s := nttHost 17 4 4 16 0 [1, 2, 3, 4]
    s.pend = some { cmd := 3, rtHost := true } ∧ s.TransformReady 2 ∧ s.InputWritten ∧ s.LevelRootsReady 2 ∧
      s.mod.toNat.Prime ∧ orderOf (s.root.toNat : ZMod s.mod.toNat) = 2 ^ 2 ∧
      (∀ m, 1 ≤ m → m < 2 → (s.rtab.getD m 0).toNat = s.root.toNat ^ 2 ^ (2 - m) % s.mod.toNat) ∧
      (s.rtab.getD 1 0).toNat < s.mod.toNat ∧
      (stateOf (exec .nttFwdRec s)).map (fun t => t.err) = some false := by
  refine ⟨rfl, by unfold State.TransformReady State.ModulusOk; decide, by unfold State.InputWritten; decide, ?_, ?_, ?_,
    ?_, by decide, by decide⟩
  · intro m h1 h2
    obtain rfl : m = 1 := by omega
    decide
  · show Nat.Prime 17
    norm_num
  · show orderOf ((4 : Nat) : ZMod 17) = 2 ^ 2
    exact orderOf_eq_prime_pow (by decide) (by decide)
  · intro m h1 h2
    obtain rfl : m = 1 := by omega
    decide

/-- LengthOneTransformReduces: an input above the modulus. -/
theorem witness_length_one :
    (ntt 17 1 0 [18]).TransformReady 0 ∧ (ntt 17 1 0 [18]).data.read 0 = some 18 := by
  unfold State.TransformReady State.ModulusOk
  decide

/-- PoisonedInputPoisonsTheOutput. -/
theorem witness_poisoned_input :
    ({ ntt 17 4 4 [1, 2, 3] with pend := some { cmd := 1, rtHost := false } } : State).TransformReady 2 ∧
      ¬ ({ ntt 17 4 4 [1, 2, 3] with pend := some { cmd := 1, rtHost := false } } : State).InputWritten := by
  unfold State.TransformReady State.ModulusOk State.InputWritten
  decide

/-- TransformOutputsAreReduced. -/
theorem witness_transform_succeeds :
    (inFlight 1 false).InputWritten ∧ (inFlight 1 false).err = false ∧
      (stateOf (exec .nttFwdIter (inFlight 1 false))).map State.err = some false := by
  unfold State.InputWritten
  decide

/-- TransformReadsOnlyWhatTheTableLists: two different states that agree on what the table lists for the iterative
transforms, and two that do for the recursive ones with `RT_HOST = 1`. -/
theorem witness_two_states :
    let s := nttHost 17 4 4 16 0 [1, 2, 3, 4]
    let s' : State := { s with opa := 1, result := 2, data := s.data.write 4 9, pend := none, rtab := s.rtab.set 1 5 }
    let s'' : State := { s' with pend := some { cmd := 4, rtHost := true }, rtab := s.rtab.set 2 5 }
    s'.params = s.params ∧ s'.mod = s.mod ∧ s'.root = s.root ∧ s'.len = s.len ∧
      (∀ k < s.len.toNat, s'.data.read k = s.data.read k) ∧
      s.pend = some { cmd := 3, rtHost := true } ∧ s''.pend = some { cmd := 4, rtHost := true } ∧
      ∀ m, 1 ≤ m → 2 ^ m < s.len.toNat → s''.rtab.getD m 0 = s.rtab.getD m 0 := by
  refine ⟨rfl, rfl, rfl, rfl, by decide, rfl, rfl, ?_⟩
  intro m h1 h2
  have h3 : 2 ^ m < 2 ^ 2 := h2
  obtain rfl : m = 1 := by
    have := (Nat.pow_lt_pow_iff_right (by decide)).1 h3
    omega
  decide

/-- IterativeStagesAreTheButterflyNetwork, RecursiveCoreCombinesEvenAndOddHalves, RootAndLengthInversesAreInverses,
ForwardTransformsAreLinear: numbers and sequences that meet the hypotheses. -/
theorem witness_sequences :
    [1, 2, 3, 4].length = 2 ^ 2 ∧ [7].length = 2 ^ 0 ∧ 1 < 2 ∧ 1 < 2 ^ 2 / 2 ∧ 4 ^ 4 % 17 = 1 ∧ 17 % 2 = 1 ∧ 3 % 2 = 1 ∧
      [6, 8, 10, 12].length = 2 ^ 2 ∧
      ∀ i, ([6, 8, 10, 12].getD i 0 : Nat) = [1, 2, 3, 4].getD i 0 + [5, 6, 7, 8].getD i 0 := by
  refine ⟨rfl, rfl, by decide, by decide, by decide, by decide, by decide, rfl, ?_⟩
  intro i
  rcases i with _ | _ | _ | _ | i <;> simp

end Sys2Proof.Tests
end

/-! PROOF. What one step and one power-on leave of the parameters and the invariant, and what `MODEXP` computes
(spec/00_scope.md R4, R7). -/

namespace Sys2Proof.Machine

/-! ## What a move of each agent answers, guards included -/

/-- The engine's step keeps an idle engine as it is, runs the command of the word in flight, or reports why that word
selects none (R93, R244, R255). -/
theorem engineStep_next {s t : State} (h : engineStep s = .next t) :
    (s.pend = none ∧ t = s) ∨
      (∃ p i, s.pend = some p ∧ decode p.cmd = .ok i ∧ exec i s = .next t) ∨
      (∃ p r, s.pend = some p ∧ decode p.cmd = .error r ∧ t = s.failed (rejectCode r)) := by
  cases hp : s.pend with
  | none =>
    rw [engineStep_idle hp] at h
    cases h
    exact .inl ⟨rfl, rfl⟩
  | some p =>
    rw [engineStep_busy hp] at h
    rcases completeCommand_cases p.cmd s with ⟨i, hi, he⟩ | ⟨r, hr, he⟩
    · exact .inr (.inl ⟨p, i, rfl, hi, he ▸ h⟩)
    · rw [he] at h
      cases h
      exact .inr (.inr ⟨p, r, rfl, hr, rfl⟩)

/-- The host's step is an accepted write, an accepted read, one `STATUS` read of a `wait`, or a power-on reset. -/
theorem hostStep_next {ev : HostEvent} {rest : List HostEvent} {s t : State} (h : hostStep ev rest s = .next t) :
    (∃ off w v tgt, ev = .access (.write off w v) ∧
        Access.route (.write off w v) (s.tookEvent rest) = .ok tgt ∧ t = (s.tookEvent rest).writeTarget tgt v) ∨
      (∃ off w v tgt, ev = .access (.read off w) ∧
        Access.route (.read off w) (s.tookEvent rest) = .ok tgt ∧
        (s.tookEvent rest).readTarget tgt = .ok v ∧ t = (s.tookEvent rest).receive v) ∨
      (ev = .wait ∧
        t = (s.tookEvent (if !s.busy && s.done then rest else .wait :: rest)).receive s.statusWord) ∨
      (ev = .powerOn ∧ t = (s.tookEvent rest).powerOn) := by
  cases ev with
  | access a =>
    obtain ⟨tgt, hr, ⟨off, w, v, rfl, rfl⟩ | ⟨off, w, v, rfl, hv, rfl⟩⟩ := hostAccess_next h
    · exact .inl ⟨off, w, v, tgt, rfl, hr, rfl⟩
    · exact .inr (.inl ⟨off, w, v, tgt, rfl, hr, hv, rfl⟩)
  | wait =>
    rw [hostStep_wait] at h
    cases h
    exact .inr (.inr (.inl ⟨rfl, rfl⟩))
  | powerOn =>
    cases h
    exact .inr (.inr (.inr ⟨rfl, rfl⟩))

/-! ## The parameters -/

@[simp] theorem State.writeCtrl_params (s : State) (v : Word) : (s.writeCtrl v).params = s.params := by
  unfold State.writeCtrl
  split
  · rfl
  · rfl

@[simp] theorem State.writeTarget_params (s : State) (tgt : Target) (v : Word) :
    (s.writeTarget tgt v).params = s.params := by
  cases tgt with
  | reg r =>
    cases r
    case ctrl => exact s.writeCtrl_params v
    all_goals rfl
  | rtab m => rfl
  | data i => rfl

theorem exec_params {i : Instr} {s t : State} (h : exec i s = .next t) : t.params = s.params := by
  obtain ⟨_, _, _, _, _, _, _, _, rfl⟩ := exec_frame h
  rfl

theorem engineStep_params {s t : State} (h : engineStep s = .next t) : t.params = s.params := by
  rcases engineStep_next h with ⟨-, rfl⟩ | ⟨_, _, -, -, he⟩ | ⟨_, _, -, -, rfl⟩
  · rfl
  · exact exec_params he
  · rfl

theorem hostStep_params {ev : HostEvent} {rest : List HostEvent} {s t : State} (h : hostStep ev rest s = .next t) :
    t.params = s.params := by
  rcases hostStep_next h with ⟨_, _, _, _, -, -, rfl⟩ | ⟨_, _, _, _, -, -, -, rfl⟩ | ⟨-, rfl⟩ | ⟨-, rfl⟩
  · simp
  · simp
  · simp
  · simp

/-- No step writes the parameters (R4). -/
theorem step_params {s t : State} (h : step s = .next t) : t.params = s.params := by
  rcases step_cases s with he | ⟨_, _, -, he⟩
  · exact engineStep_params (he ▸ h)
  · exact hostStep_params (he ▸ h)

/-- Settles O12: neither agent's move writes the parameters, and `ID` is a function of them. -/
theorem parametersNeverChange : Obligations.ParametersNeverChange := by
  intro s t h
  have hp := step_params h
  exact ⟨hp, congrArg idWord hp⟩

/-! ## Modular exponentiation -/

/-- A number below a word's value is held by a word unchanged. -/
theorem toNat_u64_of_lt {n : Nat} {m : Word} (h : n < m.toNat) : (u64 n).toNat = n := by
  rw [BitVec.toNat_ofNat, Nat.mod_eq_of_lt (h.trans m.isLt)]

/-- The checks of `MODEXP` hold exactly with the unit present and an odd modulus of at least 3 (R200). -/
theorem firstFailure_modexp {s : State} :
    firstFailure (checksOf .modexp s) = none ↔ s.params.hasModexp = true ∧ s.ModulusOk := by
  simp [firstFailure_eq_none, checksOf, modexpChecks, modOk_iff, State.ModulusOk]

/-- Settles O41: the checks hold, and the power, being below `MOD`, fits `RESULT`. -/
theorem modexpIsTheModularPower : Obligations.ModexpIsTheModularPower := by
  intro s hunit hmod
  have hpos : 0 < s.mod.toNat := by
    have := hmod.2
    omega
  refine ⟨u64 (powMod s.opa.toNat s.opb.toNat s.mod.toNat), ?_, ?_⟩
  · exact exec_success (firstFailure_modexp.2 ⟨hunit, hmod⟩)
  · rw [toNat_u64_of_lt (powMod_lt _ _ hpos), powMod_eq]

/-! ## Power-on -/

/-- The reset values meet the invariant, whatever the host's side holds: every buffer is empty, every flag clear. -/
theorem State.resetWith_wf {p : Params} (hp : p.wf = true) (port : HostPort) :
    State.Wf { State.resetWith p with port := port } where
  params := hp
  rtabLength := List.length_replicate
  dataCanonical := Memory.wf_nil
  dataBound := Memory.below_nil _
  scratchCanonical := Memory.wf_nil
  scratchBound := Memory.below_nil _
  errcodeIffErr := by simp [State.resetWith]
  errcodeKnown := by simp [State.resetWith]
  busyClear := fun _ => ⟨rfl, rfl⟩
  contextInverse := fun h => Bool.noConfusion h

/-- Settles O14: the start state is the reset state with the host's queue in its port. -/
theorem powerOnSatisfiesTheInvariant : Obligations.PowerOnSatisfiesTheInvariant :=
  fun _ _ hp => State.resetWith_wf hp _

end Sys2Proof.Machine

/-! PROOF. Every step keeps the invariant (spec/10_state.md R25, R33 to R37, spec/60_exceptions.md R241). -/

namespace Sys2Proof.Machine

/-! ## What each update of the state asks to keep the invariant -/

/-- The invariant says nothing of the host's side. -/
theorem State.Wf.withPort {s : State} (h : s.Wf) (port : HostPort) : State.Wf { s with port := port } := { h with }

/-- A code is reported by name, so it is one of 1 to 7 (R241). -/
theorem ErrCode.code_range (e : ErrCode) : e.code ≠ 0 ∧ e.code.toNat ≤ 7 := by
  cases e <;> decide

/-- A failed command reports `ERR` with a code, and is no longer in flight. -/
theorem State.Wf.failed {s : State} (h : s.Wf) (e : ErrCode) : (s.failed e).Wf :=
  { h with
    errcodeIffErr := iff_of_true e.code_range.1 rfl
    errcodeKnown := e.code_range.2
    busyClear := fun hb => Bool.noConfusion hb }

theorem State.Wf.succeeded {s : State} (h : s.Wf) : s.succeeded.Wf :=
  { h with busyClear := fun hb => Bool.noConfusion hb }

theorem State.Wf.setResult {s : State} (h : s.Wf) (n : Nat) : (s.setResult n).Wf := { h with }

/-- R182: the context of a checked modulus holds its inverse. -/
theorem State.Wf.setContext {s : State} (h : s.Wf) {m : Word} (hm : modOk m.toNat = true) :
    (s.setContext m (minv m)).Wf := by
  obtain ⟨hodd, hthree⟩ := modOk_iff.1 hm
  exact { h with contextInverse := fun _ => ⟨hodd, hthree, toNat_mul_minv hodd⟩ }

theorem State.Wf.setData {s : State} (h : s.Wf) {d : Memory} (hd : d.wf = true)
    (hb : d.below s.params.nmax = true) : (s.setData d).Wf :=
  { h with
    dataCanonical := hd
    dataBound := hb
    scratchCanonical := Memory.wf_nil
    scratchBound := Memory.below_nil _ }

/-- R119: an output no longer than `DATA` stays inside it. -/
theorem State.Wf.transformEffect {s : State} (h : s.Wf) {F : List Nat → List Nat}
    (hF : (F s.inputSeq).length ≤ s.params.nmax) : (Machine.transformEffect F s).Wf := by
  cases hc : s.data.clean s.len.toNat
  · rw [transformEffect_poisoned hc]
    exact h.setData (Memory.poisonBelow_wf h.dataCanonical _) (Memory.poisonBelow_below h.dataBound _)
  · rw [transformEffect_clean hc]
    exact h.setData (Memory.writeSeq_wf h.dataCanonical _) (Memory.writeSeq_below h.dataBound (by simpa using hF))

/-! ## The engine's move -/

/-- A transform's writes are its output function's. -/
theorem effectOf_transform {i : Instr} (hi : isTransform i) (s : State) :
    effectOf i s = transformEffect (outputOf i s) s := by
  simp only [List.mem_cons, List.not_mem_nil, or_false] at hi
  rcases hi with rfl | rfl | rfl | rfl
  · rfl
  · rfl
  · rfl
  · rfl

/-- The writes of a command whose checks hold keep the invariant. -/
theorem State.Wf.effectOf {s : State} (h : s.Wf) {i : Instr} (hc : firstFailure (checksOf i s) = none) :
    (Machine.effectOf i s).Wf := by
  rcases effectOf_cases i s with ⟨-, -, -, he⟩ | ⟨-, n, he⟩ | ⟨rfl, he⟩ | ⟨hi, -⟩
  · rw [he]
    exact h
  · rw [he]
    exact h.setResult n
  · rw [he]
    exact h.setContext (firstFailure_eq_none.1 hc _ List.mem_cons_self)
  · have hlen : (outputOf i s s.inputSeq).length ≤ s.params.nmax := by
      rw [(outputOf_length_lt hi hc).1]
      exact (lenOk_iff.1 (transform_operands hi hc).2.1).2
    rw [effectOf_transform hi]
    exact h.transformEffect hlen

theorem State.Wf.exec {s t : State} (h : s.Wf) {i : Instr} (he : Machine.exec i s = .next t) : t.Wf := by
  rcases exec_cases he with ⟨e, -, rfl⟩ | ⟨hc, rfl⟩
  · exact h.failed e
  · exact (h.effectOf hc).succeeded

theorem State.Wf.engineStep {s t : State} (h : s.Wf) (he : Machine.engineStep s = .next t) : t.Wf := by
  rcases engineStep_next he with ⟨-, rfl⟩ | ⟨_, _, -, -, hx⟩ | ⟨_, r, -, -, rfl⟩
  · exact h
  · exact h.exec hx
  · exact h.failed (rejectCode r)

/-! ## The host's move -/

theorem State.Wf.powerOn {s : State} (h : s.Wf) : s.powerOn.Wf := State.resetWith_wf h.params s.port

/-- A soft reset keeps `DATA`, or poisons all of it (R271, R272). -/
theorem State.dataAfterSoftReset_cases (s : State) :
    s.dataAfterSoftReset = s.data ∨ s.dataAfterSoftReset = [] := by
  unfold State.dataAfterSoftReset
  split
  · split
    · exact .inr rfl
    · exact .inl rfl
  · exact .inl rfl

theorem State.Wf.softReset {s : State} (h : s.Wf) : s.softReset.Wf := by
  have hreset := State.resetWith_wf h.params s.port
  rcases s.dataAfterSoftReset_cases with hd | hd
  · exact { hreset with
      dataCanonical := (congrArg Memory.wf hd).trans h.dataCanonical
      dataBound := (congrArg (Memory.below · _) hd).trans h.dataBound }
  · exact { hreset with
      dataCanonical := congrArg Memory.wf hd
      dataBound := congrArg (Memory.below · _) hd }

theorem State.Wf.writeCtrl {s : State} (h : s.Wf) (v : Word) : (s.writeCtrl v).Wf := by
  unfold State.writeCtrl
  split
  · exact h.softReset
  · exact { h with }

/-- R26: `ERR` and `ERRCODE` are cleared together. -/
theorem State.Wf.writeStatus {s : State} (h : s.Wf) (v : Word) : (s.writeStatus v).Wf := by
  have hbusy : (s.writeStatus v).busy = true → (s.writeStatus v).done = false ∧ (s.writeStatus v).err = false := by
    intro hb
    obtain ⟨hdone, herr⟩ := h.busyClear hb
    simp [hdone, herr]
  cases hv : v.getLsbD 2
  · exact { h with
      errcodeIffErr := by
        rw [State.writeStatus_errcode, State.writeStatus_err, hv]
        simpa using h.errcodeIffErr
      errcodeKnown := by
        rw [State.writeStatus_errcode, hv]
        exact h.errcodeKnown
      busyClear := hbusy }
  · exact { h with
      errcodeIffErr := by
        rw [State.writeStatus_errcode, State.writeStatus_err, hv]
        simp
      errcodeKnown := by
        rw [State.writeStatus_errcode, hv]
        exact Nat.zero_le 7
      busyClear := hbusy }

/-- R243: acceptance clears `DONE` and the error before the command is in flight. -/
theorem State.Wf.accept {s : State} (h : s.Wf) (v : Word) : (s.accept v).Wf :=
  { h with
    errcodeIffErr := by simp
    errcodeKnown := by simp
    busyClear := fun _ => ⟨rfl, rfl⟩ }

/-- A write to a target that exists keeps the invariant. -/
theorem State.Wf.writeTarget {s : State} (h : s.Wf) {tgt : Target} (ht : tgt.present s.params) (v : Word) :
    (s.writeTarget tgt v).Wf := by
  cases tgt with
  | reg r =>
    cases r
    case ctrl => exact h.writeCtrl v
    case status => exact h.writeStatus v
    case cmd => exact h.accept v
    all_goals exact { h with }
  | rtab m => exact { h with rtabLength := (List.length_set ..).trans h.rtabLength }
  | data i =>
    exact { h with
      dataCanonical := Memory.write_wf h.dataCanonical i v
      dataBound := Memory.write_below h.dataBound ht v }

theorem State.Wf.hostStep {s t : State} (h : s.Wf) {ev : HostEvent} {rest : List HostEvent}
    (he : Machine.hostStep ev rest s = .next t) : t.Wf := by
  have htook : ∀ q, (s.tookEvent q).Wf := fun q => h.withPort _
  rcases hostStep_next he with ⟨_, _, v, tgt, -, hr, rfl⟩ | ⟨_, _, v, tgt, -, -, -, rfl⟩ | ⟨-, rfl⟩ | ⟨-, rfl⟩
  · obtain ⟨-, hmapped, -, -⟩ := route_ok.1 hr
    exact (htook rest).writeTarget (present_of_targetAt hmapped) v
  · exact (htook rest).withPort _
  · exact (htook _).withPort _
  · exact (htook rest).powerOn

/-- Settles O15: the engine's move and the host's move each keep the invariant. -/
theorem everyStepKeepsTheInvariant : Obligations.EveryStepKeepsTheInvariant := by
  intro s t hwf h
  rcases step_cases s with he | ⟨_, _, -, he⟩
  · exact hwf.engineStep (he ▸ h)
  · exact hwf.hostStep (he ▸ h)

end Sys2Proof.Machine

/-! PROOF. What can stop a step, what the host's accesses to the control registers do, and what an idle engine's
registers read as (spec/10_state.md R22 to R26, R40, R41, spec/20_memory.md R64, R65). -/

namespace Sys2Proof.Machine

/-! ## What stops a step -/

/-- A command answers a next state, whatever the state (R240). -/
theorem exec_answers (i : Instr) (s : State) : ∃ t, exec i s = .next t := by
  rw [exec_eq]
  exact complete_next _ _ _

/-- The engine's step answers a next state, whatever the state (R240). -/
theorem engineStep_answers (s : State) : ∃ t, engineStep s = .next t := by
  cases hp : s.pend with
  | none => exact ⟨s, engineStep_idle hp⟩
  | some p =>
    rw [engineStep_busy hp]
    rcases completeCommand_cases p.cmd s with ⟨i, -, he⟩ | ⟨r, -, he⟩
    · exact he ▸ exec_answers i s
    · exact ⟨_, he⟩

/-- A host access has a meaning in every case. -/
theorem hostAccess_ne_refused (a : Access) (s : State) (r : Refusal) : hostAccess a s ≠ .refused r := by
  intro h
  unfold hostAccess at h
  split at h
  · cases h
  · split at h
    · cases h
    · split at h
      · cases h
      · cases h

theorem hostStep_ne_refused (ev : HostEvent) (rest : List HostEvent) (s : State) (r : Refusal) :
    hostStep ev rest s ≠ .refused r := by
  cases ev with
  | access a => exact hostAccess_ne_refused a _ r
  | wait => simp [hostStep_wait]
  | powerOn => exact fun h => nomatch h

/-- The one read that reaches a `DATA` element is the 64-bit read at its offset (R20, R62). -/
theorem read_of_route_data {a : Access} {s : State} {i : Nat} (hr : a.route s = .ok (.data i))
    (ha : a.isWrite = false) : i < s.params.nmax ∧ a = .read (BitVec.ofNat 16 (0x8000 + 8 * i)) 8 := by
  obtain ⟨hlegal, hmapped, -, -⟩ := route_ok.1 hr
  cases a with
  | write off w v => cases ha
  | read off w =>
    simp only [Access.legal, Access.width, Access.off, Bool.and_eq_true, beq_iff_eq] at hlegal hmapped
    obtain ⟨rfl, haligned⟩ := hlegal
    have hoff : 0x8000 + 8 * i = off.toNat := offset_of_targetAt haligned hmapped
    exact ⟨present_of_targetAt hmapped, by rw [hoff, BitVec.ofNat_toNat, BitVec.setWidth_eq]⟩

/-- Only an access stops a step of the host: a refused one, or a read of a poisoned element. -/
theorem hostStep_fault {ev : HostEvent} {rest : List HostEvent} {s : State} {f : Fault}
    (h : hostStep ev rest s = .fault f) :
    ∃ a, ev = .access a ∧ ((∃ c, f = .busError c a.off) ∨
      ∃ i < s.params.nmax, a = .read (BitVec.ofNat 16 (0x8000 + 8 * i)) 8 ∧ s.data.read i = none ∧
        f = .poisonedRead i) := by
  cases ev with
  | access a =>
    refine ⟨a, rfl, ?_⟩
    rcases hostAccess_fault h with ⟨c, -, hf⟩ | ⟨i, hr, ha, hn, hf⟩
    · exact .inl ⟨c, hf⟩
    · obtain ⟨hi, hread⟩ := read_of_route_data hr ha
      exact .inr ⟨i, hi, hread, hn, hf⟩
  | wait => simp [hostStep_wait] at h
  | powerOn => cases h

/-- Settles O11: the engine's step always answers, so a step that stops is the host's. -/
theorem onlyAHostAccessStopsTheMachine : Obligations.OnlyAHostAccessStopsTheMachine := by
  intro s
  obtain ⟨t, ht⟩ := engineStep_answers s
  rcases step_cases s with he | ⟨ev, rest, hq, he⟩
  · rw [he, ht]
    exact ⟨fun f h => (nomatch h), fun r h => nomatch h⟩
  · rw [he]
    refine ⟨fun f h => ?_, hostStep_ne_refused ev rest s⟩
    obtain ⟨a, rfl, hf⟩ := hostStep_fault h
    exact ⟨a, rest, hq, hf⟩

/-! ## CTRL, STATUS and ID -/

/-- A `STATUS` write is accepted in flight or not (R68). -/
theorem hostAccess_writeStatus (s : State) (v : Word) :
    hostAccess (.write 0x0010 8 v) s = .next (s.writeStatus v) :=
  hostAccess_write (route_reg .status rfl rfl (by simp [Target.readOnly]) fun _ => rfl)

theorem hostAccess_writeCtrl (s : State) (v : Word) : hostAccess (.write 0x0008 8 v) s = .next (s.writeCtrl v) :=
  hostAccess_write (route_reg .ctrl rfl rfl (by simp [Target.readOnly]) fun _ => rfl)

theorem hostAccess_readCtrl (s : State) : hostAccess (.read 0x0008 8) s = .next (s.receive s.ctrlWord) :=
  hostAccess_read (route_reg .ctrl rfl rfl (by simp [Target.readOnly]) fun _ => rfl) rfl

theorem hostAccess_readId (s : State) : hostAccess (.read 0x0000 8) s = .next (s.receive (idWord s.params)) :=
  hostAccess_read (route_reg .id rfl rfl (by simp [Access.isWrite]) fun _ => rfl) rfl

/-- R26: a `STATUS` write, bit by bit. -/
theorem State.writeStatus_eq (s : State) (v : Word) :
    s.writeStatus v = { s with
      done := if v.getLsbD 1 then false else s.done
      err := if v.getLsbD 2 then false else s.err
      errcode := if v.getLsbD 2 then 0 else s.errcode } := by
  have hclear (held named : Bool) : (held && !named) = if named then false else held := by
    cases named <;> simp
  simp only [State.writeStatus, hclear]

/-- While a command is in flight there is nothing in `STATUS` to clear (R25). -/
theorem State.Wf.writeStatus_busy {s : State} (h : s.Wf) (hp : s.pend ≠ none) (v : Word) : s.writeStatus v = s := by
  obtain ⟨hdone, herr⟩ := h.busyClear (Option.isSome_iff_ne_none.2 hp)
  have hcode : s.errcode = 0 := by
    by_contra hne
    simp [h.errcodeIffErr.1 hne] at herr
  obtain ⟨⟩ := s
  simp_all [State.writeStatus]

/-- Settles O21: an accepted write, which with a command in flight finds every bit clear. -/
theorem statusWriteClearsTheNamedBits : Obligations.StatusWriteClearsTheNamedBits := by
  intro s v
  rw [hostAccess_writeStatus]
  exact ⟨congrArg _ (s.writeStatus_eq v), fun hwf hp => congrArg _ (hwf.writeStatus_busy hp v)⟩

/-- R24: with bit 0 clear a `CTRL` write sets the two fields. -/
theorem State.writeCtrl_of_clear (s : State) {v : Word} (h : v.getLsbD 0 = false) :
    s.writeCtrl v = { s with irqEn := v.getLsbD 1, rtHost := v.getLsbD 2 } := by
  unfold State.writeCtrl
  rw [h]
  rfl

/-- R23: `CTRL` read whole is its two fields at bits 1 and 2. -/
theorem ctrlWord_eq_and_six {s : State} {v : Word} (h1 : s.irqEn = v.getLsbD 1) (h2 : s.rtHost = v.getLsbD 2) :
    s.ctrlWord = v &&& 6 := by
  apply BitVec.eq_of_getLsbD_eq
  intro k hk
  rw [getLsbD_ctrlWord, BitVec.getLsbD_and, h1, h2]
  interval_cases k <;> simp

/-- Settles O22: the write and the read are accepted in flight or not, and the bits are read back. -/
theorem ctrlWriteSetsItsTwoFields : Obligations.CtrlWriteSetsItsTwoFields := by
  intro s v hv t
  refine ⟨?_, ?_⟩
  · rw [hostAccess_writeCtrl, s.writeCtrl_of_clear hv]
  · rw [hostAccess_readCtrl, ctrlWord_eq_and_six (s := t) (v := v) rfl rfl]
    rfl

/-- R25: `ERRCODE` is bits 15:8 of `STATUS`. -/
theorem extractLsb'_statusWord (s : State) : s.statusWord.extractLsb' 8 8 = s.errcode := by
  apply BitVec.eq_of_getLsbD_eq
  intro k hk
  rw [BitVec.getLsbD_extractLsb', getLsbD_statusWord]
  simp [hk, show 8 + k ≠ 1 by omega, show 8 + k ≠ 2 by omega, show 8 + k ≠ 3 by omega]

/-- Settles O24: the bits of the `STATUS` word, read in flight or not. -/
theorem statusReadsItsFields : Obligations.StatusReadsItsFields := by
  intro s
  refine ⟨s.statusWord, hostAccess_readStatus s, getLsbD_statusWord s 0, getLsbD_statusWord s 1,
    getLsbD_statusWord s 2, getLsbD_statusWord s 3, fun k h4 h7 => ?_, extractLsb'_statusWord s, fun k h16 => ?_⟩
  · rw [getLsbD_statusWord]
    simp [show k ≠ 0 by omega, show k ≠ 1 by omega, show k ≠ 2 by omega, show k ≠ 3 by omega, show k < 8 by omega]
  · rw [getLsbD_statusWord]
    simp [show k ≠ 0 by omega, show k ≠ 1 by omega, show k ≠ 2 by omega, show k ≠ 3 by omega,
      show ¬ k < 8 by omega, BitVec.getLsbD_of_ge s.errcode (k - 8) (by omega)]

/-- The high part of two fields side by side counts in units of the low part's range. -/
theorem toNat_append_add {m n : Nat} (x : BitVec m) (y : BitVec n) : (x ++ y).toNat = x.toNat * 2 ^ n + y.toNat := by
  rw [BitVec.toNat_append, ← Nat.shiftLeft_add_eq_or_of_lt y.isLt, Nat.shiftLeft_eq]

theorem toNat_bit (b : Bool) : (bit b).toNat = b.toNat := by
  cases b
  · rfl
  · rfl

/-- R22: `ID` as a number. -/
theorem toNat_idWord {p : Params} (h : p.lmax < 2 ^ 8) :
    (idWord p).toNat = 0x45525958 * 2 ^ 32 + 7 * 2 ^ 16 + p.lmax * 2 ^ 8 + p.hasModexp.toNat * 2 ^ 3 + 7 := by
  have hw : (idWord p).toNat = BitVec.toNat
    (0x45525958#32 ++ 0x0007#16 ++ BitVec.ofNat 8 p.lmax ++ 0#4 ++ bit p.hasModexp ++ 1#1 ++ 1#1 ++ 1#1) := rfl
  rw [hw]
  simp only [toNat_append_add, toNat_bit, BitVec.toNat_ofNat, Nat.mod_eq_of_lt h]
  omega

/-- Bit 3 of `ID` is `HAS_MODEXP`. -/
theorem getLsbD_idWord_three (p : Params) : (idWord p).getLsbD 3 = p.hasModexp := by
  have hw : (idWord p).getLsbD 3 = BitVec.getLsbD (w := 32 + 16 + 8 + 4 + 1 + 1 + 1 + 1)
    (0x45525958#32 ++ 0x0007#16 ++ BitVec.ofNat 8 p.lmax ++ 0#4 ++ bit p.hasModexp ++ 1#1 ++ 1#1 ++ 1#1) 3 := rfl
  rw [hw]
  simp only [BitVec.getLsbD_append, getLsbD_bit]
  simp

/-- A legal `LMAX` is at least 1 and at most 12 (R4). -/
theorem Params.wf_iff {p : Params} : p.wf = true ↔ 1 ≤ p.lmax ∧ p.lmax ≤ 12 := by
  simp [Params.wf]

/-- R64: a write to `ID` is refused because it is read-only. -/
theorem hostAccess_writeId (s : State) (v : Word) :
    hostAccess (.write 0x0000 8 v) s = .fault (.busError .readOnly 0x0000) := by
  have hmapped : targetAt s.params 0 = some (.reg .id) := rfl
  refine hostAccess_refused ?_
  simp [Access.route, Access.legal, Access.width, Access.off, Access.isWrite, Target.readOnly, hmapped]

/-- Settles O25: the fields of the word, each cut out of its number. -/
theorem idReadsTheParameters : Obligations.IdReadsTheParameters := by
  intro s hp
  have hlmax : s.params.lmax ≤ 12 := (Params.wf_iff.1 hp).2
  have hnum := toNat_idWord (p := s.params) (by omega)
  have hunit : s.params.hasModexp.toNat ≤ 1 := Bool.toNat_le _
  refine ⟨⟨idWord s.params, hostAccess_readId s, ?_⟩, fun v => ⟨_, hostAccess_writeId s v⟩⟩
  refine ⟨by omega, by omega, by omega, by omega, getLsbD_idWord_three _, by omega, fun href => ?_⟩
  rw [href]
  rfl

/-! ## What an idle engine reads as -/

/-- Every target lies in the space at an offset that is a multiple of 8 (R20). -/
theorem Target.offset_legal {p : Params} (hp : p.wf = true) {t : Target} (ht : t.present p) :
    t.offset < 2 ^ 16 ∧ t.offset % 8 = 0 := by
  obtain ⟨-, h12⟩ := Params.wf_iff.1 hp
  cases t with
  | reg r => cases r <;> decide
  | rtab m =>
    have hm : m < p.lmax := ht
    simp only [Target.offset]
    omega
  | data i =>
    have hi : i < 2 ^ p.lmax := ht
    have hmax : 2 ^ p.lmax ≤ 2 ^ 12 := Nat.pow_le_pow_right (by decide) h12
    simp only [Target.offset]
    omega

/-- An idle engine refuses no 64-bit read at a target's offset (R64, R72). -/
theorem route_read_idle {s : State} (hp : s.params.wf = true) (hidle : s.pend = none) {t : Target}
    (ht : t.present s.params) : Access.route (.read (BitVec.ofNat 16 t.offset) 8) s = .ok t := by
  obtain ⟨hlt, haligned⟩ := Target.offset_legal hp ht
  have hoff : (BitVec.ofNat 16 t.offset).toNat = t.offset := by
    rw [BitVec.toNat_ofNat, Nat.mod_eq_of_lt hlt]
  refine route_ok.2 ⟨?_, ?_, by simp [Access.isWrite], by simp [State.busy, hidle]⟩
  · simp [Access.legal, Access.width, Access.off, haligned]
  · rw [Access.off, hoff]
    exact targetAt_offset hp ht

/-- On an idle engine a read at a target's offset returns the value held there. -/
theorem hostAccess_read_idle {s : State} (hp : s.params.wf = true) (hidle : s.pend = none) {t : Target}
    (ht : t.present s.params) {v : Word} (hv : s.readTarget t = .ok v) :
    hostAccess (.read (BitVec.ofNat 16 t.offset) 8) s = .next (s.receive v) :=
  hostAccess_read (route_read_idle hp hidle ht) hv

/-- An accepted read of a target with no value to return faults (R41). -/
theorem hostAccess_read_fault {off : Offset} {w : Nat} {s : State} {t : Target} {f : Fault}
    (hr : Access.route (.read off w) s = .ok t) (hf : s.readTarget t = .error f) :
    hostAccess (.read off w) s = .fault f := by
  unfold hostAccess
  rw [hr]
  simp only
  rw [hf]

theorem readTarget_data_written {s : State} {i : Nat} {v : Word} (h : s.data.read i = some v) :
    s.readTarget (.data i) = .ok v := by
  simp [State.readTarget, h]

theorem readTarget_data_poisoned {s : State} {i : Nat} (h : s.data.read i = none) :
    s.readTarget (.data i) = .error (.poisonedRead i) := by
  simp [State.readTarget, h]

/-- Settles O59: each offset is that of a target, which holds the value or is a poisoned element. -/
theorem idleReadsReturnTheHeldValueOrFaultWhenPoisoned :
    Obligations.IdleReadsReturnTheHeldValueOrFaultWhenPoisoned := by
  intro s hp hidle returns
  have hreg (r : Reg) (v : Word) (hv : s.readTarget (.reg r) = .ok v) : returns (Target.reg r).offset v :=
    hostAccess_read_idle hp hidle (t := .reg r) trivial hv
  refine ⟨hreg .mod _ rfl, hreg .root _ rfl, hreg .len _ rfl, hreg .opa _ rfl, hreg .opb _ rfl, hreg .result _ rfl,
    hreg .mctxMod _ rfl, hreg .mctxInv _ rfl, fun m hm => ?_, fun i hi => ⟨fun v hv => ?_, fun hn => ?_⟩⟩
  · exact hostAccess_read_idle hp hidle (t := .rtab m) hm rfl
  · exact hostAccess_read_idle hp hidle (t := .data i) hi (readTarget_data_written hv)
  · exact hostAccess_read_fault (route_read_idle hp hidle (t := .data i) hi) (readTarget_data_poisoned hn)

/-! ## A power-on reset -/

theorem ctrlWord_powerOn (s : State) : s.powerOn.ctrlWord = 0 := by
  apply BitVec.eq_of_getLsbD_eq
  intro k _
  rw [getLsbD_ctrlWord]
  simp

theorem statusWord_powerOn (s : State) : s.powerOn.statusWord = 0 := by
  apply BitVec.eq_of_getLsbD_eq
  intro k _
  rw [getLsbD_statusWord]
  simp [State.busy]

/-- Settles O13: every register is at 0, and the buffers are empty. -/
theorem powerOnResetValues : Obligations.PowerOnResetValues := by
  intro s t
  refine ⟨ctrlWord_powerOn s, statusWord_powerOn s, rfl, rfl, rfl, rfl, rfl, rfl, rfl, rfl, List.length_replicate,
    fun m => ?_, rfl, fun _ => rfl, fun _ => rfl, rfl, rfl, rfl, fun _ => rfl, fun _ => ⟨rfl, rfl⟩⟩
  rw [State.powerOn_rtab, List.getD_eq_getElem?_getD, List.getElem?_getD_replicate_default_eq]

end Sys2Proof.Machine

/-! PROOF. What a command writes and leaves unchanged, and what a transform leaves in `DATA` (spec/10_state.md R35, R39,
R41, spec/40_ntt_common.md R119). -/

namespace Sys2Proof.Machine

/-! ## What a command writes -/

/-- A transform whose checks hold writes no `DATA` element from `LEN` on (R119). -/
theorem read_effectOf_above {i : Instr} {s : State} (hc : firstFailure (checksOf i s) = none) {k : Nat}
    (hk : s.len.toNat ≤ k) : (effectOf i s).data.read k = s.data.read k := by
  by_cases hi : isTransform i
  · rw [read_transformEffect hi hc, if_pos hk]
  · rw [(effectOf_buffers hi s).1]

/-- Settles O27: a failed command writes none of them, and a successful one what its kind writes. -/
theorem commandWritesOnlyWhatTheTableLists : Obligations.CommandWritesOnlyWhatTheTableLists := by
  intro i s t h
  obtain ⟨_, _, _, _, _, _, _, _, hframe⟩ := exec_frame h
  refine ⟨by rw [hframe], by rw [hframe], by rw [hframe], by rw [hframe], by rw [hframe], by rw [hframe],
    by rw [hframe], by rw [hframe], by rw [hframe], by rw [hframe], ?_⟩
  rcases exec_cases h with ⟨e, -, rfl⟩ | ⟨hc, rfl⟩
  · exact ⟨fun _ => rfl, fun _ => ⟨rfl, rfl, rfl⟩, fun _ => ⟨rfl, rfl⟩, fun _ _ => rfl⟩
  · exact ⟨fun hi => effectOf_result hi s, fun hi => effectOf_context hi s, fun hi => effectOf_buffers hi s,
      fun _ hk => read_effectOf_above hc hk⟩

/-- R39: the targets the table lists as written by a command, with `STATUS`, which its completion writes. -/
def commandWrites (i : Instr) (s : State) : Target → Prop
  | .reg .status => True
  | .reg .result => isScalar i
  | .reg .mctxMod | .reg .mctxInv => i = .montSetup
  | .data k => isTransform i ∧ k < s.len.toNat
  | _ => False

/-- Every target a command does not write reads as before it. -/
theorem readTarget_exec {i : Instr} {s t : State} (h : exec i s = .next t) {u : Target} (hu : ¬ commandWrites i s u) :
    t.readTarget u = s.readTarget u := by
  obtain ⟨hparams, hirq, hrt, hmod, hroot, hlen, hopa, hopb, hrtab, -, hres, hctx, hbuf, habove⟩ :=
    commandWritesOnlyWhatTheTableLists i s t h
  cases u with
  | reg r =>
    cases r
    case id => simp only [State.readTarget, hparams]
    case ctrl => simp only [State.readTarget, State.ctrlWord, hirq, hrt]
    case status => exact absurd trivial hu
    case cmd => rfl
    case mod => simp only [State.readTarget, hmod]
    case root => simp only [State.readTarget, hroot]
    case len => simp only [State.readTarget, hlen]
    case opa => simp only [State.readTarget, hopa]
    case opb => simp only [State.readTarget, hopb]
    case result => simp only [State.readTarget, hres hu]
    case mctxMod => simp only [State.readTarget, (hctx hu).1]
    case mctxInv => simp only [State.readTarget, (hctx hu).2.1]
  | rtab m => simp only [State.readTarget, hrtab]
  | data k =>
    have hread : t.data.read k = s.data.read k := by
      by_cases hi : isTransform i
      · exact habove k (Nat.le_of_not_lt fun hk => hu ⟨hi, hk⟩)
      · rw [(hbuf hi).1]
    simp only [State.readTarget, hread]

/-- Settles O28: a byte outside the command's own lies in a target the command does not write. -/
theorem commandChangesOnlyItsBytes : Obligations.CommandChangesOnlyItsBytes := by
  intro i s t b h hstatus hresult hcontext hdata
  unfold State.byteAt
  rw [exec_params h]
  cases hu : targetAt s.params b with
  | none => rfl
  | some u =>
    obtain ⟨hlow, hhigh⟩ := targetAt_window hu
    have hkept : ¬ commandWrites i s u := by
      intro hw
      cases u with
      | reg r =>
        cases r
        case status => exact hstatus ⟨hlow, hhigh⟩
        case result => exact hresult hw ⟨hlow, hhigh⟩
        case mctxMod => exact hcontext hw ⟨hlow, hhigh.trans (by decide)⟩
        case mctxInv => exact hcontext hw ⟨le_trans (by decide) hlow, hhigh⟩
        all_goals exact hw
      | rtab m => exact hw
      | data k =>
        obtain ⟨hi, hk⟩ := hw
        simp only [Target.offset] at hlow hhigh
        exact hdata hi ⟨by omega, by omega⟩
    simp only [readTarget_exec h hkept]

/-! ## What a transform leaves in DATA -/

/-- R41: the test a transform makes of its input. -/
theorem clean_iff_inputWritten {s : State} : s.data.clean s.len.toNat = true ↔ s.InputWritten := by
  simp only [Memory.clean_iff, State.InputWritten, Option.isSome_iff_ne_none]

/-- R37: the value of `RT_HOST` latched with the command in flight. -/
theorem latchedRtHost_of_pend {s : State} {p : Pending} (h : s.pend = some p) : s.latchedRtHost = p.rtHost := by
  simp [State.latchedRtHost, h]

/-- R115 to R117: the operands meet the checks of every transform. -/
theorem transformChecks_hold {s : State} {L : Nat} (h : s.TransformReady L) : ∀ c ∈ transformChecks s, c.1 = true := by
  obtain ⟨hmod, hlen, hmax, hroot⟩ := h
  have h1 : modOk s.mod.toNat = true := modOk_iff.2 hmod
  have h2 : lenOk s.params s.len.toNat = true := lenOk_iff.2 ⟨⟨L, hlen⟩, hlen ▸ hmax⟩
  have h3 : rootOk s.root.toNat s.mod.toNat = true := rootOk_iff.2 hroot
  simp [transformChecks, h1, h2, h3]

/-- R145: the level roots meet the check of a recursive transform. -/
theorem rtabOk_of_levelRoots {s : State} {L : Nat} {p : Pending} (hp : s.pend = some p) (hlen : s.len.toNat = 2 ^ L)
    (h : p.rtHost = true → s.LevelRootsReady L) : s.rtabOk = true := by
  refine rtabOk_iff.2 fun hrt m h1 hm => ?_
  rw [State.logLen, hlen, Nat.log2_two_pow] at hm
  exact h (latchedRtHost_of_pend hp ▸ hrt) m h1 hm

/-- With operands and level roots as R115 to R117 and R145 ask, no check of a transform fails. -/
theorem firstFailure_transform {i : Instr} (hi : isTransform i) {s : State} {L : Nat} (h : s.TransformReady L)
    (hroots : s.HostRootsMeet i (s.LevelRootsReady L)) : firstFailure (checksOf i s) = none := by
  have hbase := transformChecks_hold h
  rw [firstFailure_eq_none]
  by_cases hrec : i ∈ [Instr.nttFwdRec, .nttInvRec]
  · obtain ⟨p, hp, hlevel⟩ := hroots hrec
    have hchecks : checksOf i s = transformChecks s ++ [(s.rtabOk, .rootRange)] := by
      rcases List.mem_pair.1 hrec with rfl | rfl
      · rfl
      · rfl
    rw [hchecks, rtabOk_of_levelRoots hp h.2.1 hlevel]
    simpa using hbase
  · have hchecks : checksOf i s = transformChecks s := by
      simp only [List.mem_cons, List.not_mem_nil, or_false] at hi hrec
      rcases hi with rfl | rfl | hi
      · rfl
      · rfl
      · exact absurd hi hrec
    rw [hchecks]
    exact hbase

/-- Settles O49: the checks hold, and the writes poison `DATA[0 ..< LEN]`. -/
theorem poisonedInputPoisonsTheOutput : Obligations.PoisonedInputPoisonsTheOutput := by
  intro s L hready hpoisoned i hi hroots
  have hclean : s.data.clean s.len.toNat = false :=
    Bool.eq_false_iff.2 fun hc => hpoisoned (clean_iff_inputWritten.1 hc)
  have heffect : effectOf i s = s.setData (s.data.poisonBelow s.len.toNat) :=
    (effectOf_transform hi s).trans (transformEffect_poisoned hclean)
  refine ⟨_, exec_success (firstFailure_transform hi hready hroots), ?_, fun k => ?_⟩
  · rw [heffect]
    rfl
  · rw [heffect, State.succeeded_data, State.setData_data, Memory.read_poisonBelow, hready.2.1]

/-- Settles O50: with `ERR` still 0 the checks held, and the output function's elements are below the modulus. -/
theorem transformOutputsAreReduced : Obligations.TransformOutputsAreReduced := by
  intro s t i hi hwritten _ h herr k hk
  rcases exec_cases h with ⟨e, -, rfl⟩ | ⟨hc, rfl⟩
  · exact Bool.noConfusion herr
  · obtain ⟨hlen, hlt⟩ := outputOf_length_lt hi hc
    have hget : (outputOf i s s.inputSeq).getD k 0 < s.mod.toNat := by
      rw [List.getD_eq_getElem _ _ (hlen ▸ hk)]
      exact hlt _ (List.getElem_mem _)
    refine ⟨u64 ((outputOf i s s.inputSeq).getD k 0), ?_, ?_⟩
    · rw [State.succeeded_data, read_transformEffect hi hc, if_neg (Nat.not_le.2 hk),
        if_pos (clean_iff_inputWritten.2 hwritten)]
    · rwa [toNat_u64_of_lt hget]

end Sys2Proof.Machine

/-! PROOF. Which state a transform reads, and that a command in flight does not see `CTRL` (spec/10_state.md R24, R35,
R37, R39). -/

namespace Sys2Proof.Machine

/-- The recursive transforms, which alone read level roots (R39). -/
abbrev isRecursive (i : Instr) : Prop := i ∈ [Instr.nttFwdRec, .nttInvRec]

/-- R39: two states agree on what the table lists as read by the transform `i`, `DATA` left out. -/
structure SameOperands (i : Instr) (s s' : State) : Prop where
  params : s'.params = s.params
  mod : s'.mod = s.mod
  root : s'.root = s.root
  len : s'.len = s.len
  /-- A recursive transform reads the latched `RT_HOST` and, when it is 1, the level roots below the top level. -/
  levelRoots : isRecursive i → s'.latchedRtHost = s.latchedRtHost ∧
    (s.latchedRtHost = true → ∀ m, 1 ≤ m → m < s.logLen → s'.rtabEntry m = s.rtabEntry m)

/-- Level roots that agree up to the top level give the same core on a sequence of length `LEN` (R140). -/
theorem recCore_congr_levels {s : State} {x : List Nat} (hx : x.length = s.len.toNat) {root root' : Nat → Nat}
    (hroot : ∀ m, 1 ≤ m → m ≤ s.logLen → root' m = root m) (N : Nat) :
    recCore N root' x.length.log2 x = recCore N root x.length.log2 x :=
  recCore_congr N _ (fun m h1 hm k _ => by rw [hroot m h1 (by rwa [State.logLen, ← hx])]) x

namespace SameOperands

variable {i : Instr} {s s' : State}

theorem logLen (h : SameOperands i s s') : s'.logLen = s.logLen := by rw [State.logLen, State.logLen, h.len]

theorem transformChecks (h : SameOperands i s s') : Machine.transformChecks s' = Machine.transformChecks s := by
  rw [Machine.transformChecks, Machine.transformChecks, h.params, h.mod, h.root, h.len]

theorem rtabOk (h : SameOperands i s s') (hi : isRecursive i) : s'.rtabOk = s.rtabOk := by
  obtain ⟨hlatched, hentries⟩ := h.levelRoots hi
  rw [Bool.eq_iff_iff, rtabOk_iff, rtabOk_iff, hlatched, h.logLen, h.mod]
  refine forall_congr' fun hrt => forall_congr' fun m => forall_congr' fun h1 => forall_congr' fun hm => ?_
  rw [hentries hrt m h1 hm]

/-- The checks of a transform depend on what the table lists. -/
theorem checksOf (h : SameOperands i s s') (hi : isTransform i) : Machine.checksOf i s' = Machine.checksOf i s := by
  have hrec (hr : isRecursive i) : recursiveChecks s' = recursiveChecks s := by
    rw [recursiveChecks, recursiveChecks, h.transformChecks, h.rtabOk hr]
  simp only [List.mem_cons, List.not_mem_nil, or_false] at hi
  rcases hi with rfl | rfl | rfl | rfl
  · exact h.transformChecks
  · exact h.transformChecks
  · exact hrec (by decide)
  · exact hrec (by decide)

/-- R141: the forward level roots up to the top level. -/
theorem rootFwd (h : SameOperands i s s') (hi : isRecursive i) {m : Nat} (h1 : 1 ≤ m) (hm : m ≤ s.logLen) :
    s'.rootFwd m = s.rootFwd m := by
  obtain ⟨hlatched, hentries⟩ := h.levelRoots hi
  simp only [State.rootFwd, h.logLen, h.root, h.mod, hlatched]
  split
  · rfl
  · split
    · exact hentries ‹_› m h1 (by omega)
    · rfl

/-- R142: the inverse level roots up to the top level. -/
theorem rootInv (h : SameOperands i s s') (hi : isRecursive i) {m : Nat} (h1 : 1 ≤ m) (hm : m ≤ s.logLen) :
    s'.rootInv m = s.rootInv m := by
  obtain ⟨hlatched, hentries⟩ := h.levelRoots hi
  simp only [State.rootInv, h.logLen, h.root, h.mod, h.len, hlatched]
  split
  · rfl
  · split
    · rw [hentries ‹_› m h1 (by omega)]
    · rfl

/-- The output of a transform on a sequence of length `LEN` depends on what the table lists. -/
theorem outputOf (h : SameOperands i s s') (hi : isTransform i) {x : List Nat} (hx : x.length = s.len.toNat) :
    Machine.outputOf i s' x = Machine.outputOf i s x := by
  simp only [List.mem_cons, List.not_mem_nil, or_false] at hi
  rcases hi with rfl | rfl | rfl | rfl
  · simp only [Machine.outputOf, h.mod, h.root]
  · simp only [Machine.outputOf, h.mod, h.root]
  · simp only [Machine.outputOf, fwdRec, h.mod, recCore_congr_levels hx fun m => h.rootFwd (by decide)]
  · simp only [Machine.outputOf, invRec, h.mod, recCore_congr_levels hx fun m => h.rootInv (by decide)]

end SameOperands

/-! ## CTRL while a command is in flight -/

/-- Other values of the two fields of `CTRL`. -/
def State.withControl (s : State) (en rt : Bool) : State := { s with irqEn := en, rtHost := rt }

/-- R37: with a command in flight the latched `RT_HOST` counts, and not that of `CTRL`. -/
theorem sameOperands_withControl (i : Instr) {s : State} {p : Pending} (hp : s.pend = some p) (en rt : Bool) :
    SameOperands i s (s.withControl en rt) where
  params := rfl
  mod := rfl
  root := rfl
  len := rfl
  levelRoots := fun _ =>
    ⟨(latchedRtHost_of_pend (s := s.withControl en rt) hp).trans (latchedRtHost_of_pend hp).symm,
      fun _ _ _ _ => rfl⟩

/-- Settles O56: the checks and the writes are the same, and a completion keeps `CTRL`. -/
theorem commandInFlightIgnoresControlChanges : Obligations.CommandInFlightIgnoresControlChanges := by
  intro i s t p en rt hp h
  have hsame := sameOperands_withControl i hp en rt
  rw [exec_eq] at h ⊢
  by_cases hi : isTransform i
  · refine complete_congr (State.withControl · en rt) (hsame.checksOf hi) (fun _ => rfl) ?_ h
    rw [effectOf_transform hi, effectOf_transform hi]
    exact transformEffect_congr (State.withControl · en rt) rfl rfl (hsame.outputOf hi s.length_inputSeq) fun _ => rfl
  · cases i
    case nttFwdIter => exact absurd (by decide) hi
    case nttInvIter => exact absurd (by decide) hi
    case nttFwdRec => exact absurd (by decide) hi
    case nttInvRec => exact absurd (by decide) hi
    all_goals exact complete_congr (State.withControl · en rt) rfl (fun _ => rfl) rfl h

/-! ## The state a transform reads -/

section
variable {s s' : State} (hlen : s'.len = s.len) (hdata : ∀ k < s.len.toNat, s'.data.read k = s.data.read k)
include hlen hdata

/-- Two states whose input elements agree have poisoned input together. -/
theorem clean_congr : s'.data.clean s'.len.toNat = s.data.clean s.len.toNat := by
  rw [hlen, Bool.eq_iff_iff, Memory.clean_iff, Memory.clean_iff]
  exact forall_congr' fun k => forall_congr' fun hk => by rw [hdata k hk]

/-- Two states whose input elements agree have the same input sequence. -/
theorem inputSeq_congr : s'.inputSeq = s.inputSeq := by
  have hseq : s'.data.readSeq s.len.toNat = s.data.readSeq s.len.toNat :=
    List.map_congr_left fun k hk => by rw [hdata k (List.mem_range.1 hk)]
  rw [State.inputSeq, State.inputSeq, hlen, hseq]

end

/-- A level below the top level has a length below `LEN`. -/
theorem two_pow_lt_len {s : State} {m : Nat} (hm : m < s.logLen) : 2 ^ m < s.len.toNat := by
  have hne : s.len.toNat ≠ 0 := by
    intro h0
    simp [State.logLen, h0] at hm
  calc 2 ^ m < 2 ^ s.logLen := Nat.pow_lt_pow_right (by decide) hm
    _ ≤ s.len.toNat := Nat.log2_self_le hne

/-- Settles O57: the checks agree, so both fail and keep `DATA`, or both write the same output. -/
theorem transformReadsOnlyWhatTheTableLists : Obligations.TransformReadsOnlyWhatTheTableLists := by
  intro s s' t t' hparams hmod hroot hlen hdata i hi hlevel h h' k hk
  have hsame : SameOperands i s s' := by
    refine ⟨hparams, hmod, hroot, hlen, fun hrec => ?_⟩
    obtain ⟨p, p', hp, hp', hrt, hentries⟩ := hlevel hrec
    rw [latchedRtHost_of_pend hp, latchedRtHost_of_pend hp']
    exact ⟨hrt, fun ht m h1 hm => congrArg BitVec.toNat (hentries ht m h1 (two_pow_lt_len hm))⟩
  have hchecks := hsame.checksOf hi
  rcases exec_cases h with ⟨e, he, rfl⟩ | ⟨hc, rfl⟩
  · have hfail : exec i s' = .next (s'.failed e) := exec_failure (hchecks ▸ he)
    obtain rfl : s'.failed e = t' := by simpa [hfail] using h'
    exact hdata k hk
  · have hc' : firstFailure (checksOf i s') = none := hchecks ▸ hc
    obtain rfl : (effectOf i s').succeeded = t' := by simpa [exec_success hc'] using h'
    rw [State.succeeded_data, State.succeeded_data, read_transformEffect hi hc, read_transformEffect hi hc',
      clean_congr hlen hdata, inputSeq_congr hlen hdata, hsame.outputOf hi s.length_inputSeq, hlen, hdata k hk]

end Sys2Proof.Machine

/-! PROOF. Which host accesses are refused, that a read has no side effect, and what a storing write leaves
(spec/20_memory.md R61 to R69). -/

namespace Sys2Proof.Machine

/-! ## The map, the read-only registers and the accesses of R68, by offset -/

/-- R20: every offset below `0x0060` lies in a register. -/
theorem exists_reg_of_lt {off : Nat} (h : off < 0x0060) : ∃ r, Reg.ofIndex (off / 8) = some r := by
  have hk : off / 8 < 12 := by omega
  generalize off / 8 = k at hk
  interval_cases k <;> exact ⟨_, rfl⟩

/-- R61: the map answers a target exactly at the offsets its ranges cover. -/
theorem mappedOffset_iff {p : Params} {off : Nat} : MappedOffset p off ↔ ∃ t, targetAt p off = some t := by
  have hmax : p.nmax = 2 ^ p.lmax := rfl
  rw [MappedOffset, ← hmax, targetAt]
  split_ifs with hreg hrtab hdata
  · obtain ⟨r, hr⟩ := exists_reg_of_lt hreg
    exact iff_of_true (.inl hreg) ⟨.reg r, by rw [hr]; rfl⟩
  · exact iff_of_true (.inr (.inl (by simpa using hrtab))) ⟨_, rfl⟩
  · exact iff_of_true (.inr (.inr (by simpa using hdata))) ⟨_, rfl⟩
  · simp only [Bool.and_eq_true, decide_eq_true_eq] at hrtab hdata
    simp [hreg, hrtab, hdata]

/-- R64: the read-only registers are those at the four offsets. -/
theorem Target.readOnly_iff {t : Target} : t.readOnly = true ↔ t.offset ∈ [0x0000, 0x0048, 0x0050, 0x0058] := by
  cases t with
  | reg r => cases r <;> decide
  | rtab m =>
    simp only [Target.readOnly, Target.offset, Bool.false_eq_true, List.mem_cons, List.not_mem_nil, or_false,
      false_iff]
    omega
  | data i =>
    simp only [Target.readOnly, Target.offset, Bool.false_eq_true, List.mem_cons, List.not_mem_nil, or_false,
      false_iff]
    omega

/-- R68: a target is reached in flight at the offsets of `CTRL` and `STATUS`, and by a read at that of `ID`. -/
theorem Target.allowedBusy_iff {t : Target} {w : Bool} :
    t.allowedBusy w = true ↔ (t.offset = 0x0000 ∧ w = false) ∨ t.offset = 0x0008 ∨ t.offset = 0x0010 := by
  cases t with
  | reg r => cases r <;> simp [Target.allowedBusy, Target.offset]
  | rtab m =>
    simp only [Target.allowedBusy, Target.offset, Bool.false_eq_true, false_iff]
    omega
  | data i =>
    simp only [Target.allowedBusy, Target.offset, Bool.false_eq_true, false_iff]
    omega

/-- R68: the listed accesses, by width, offset and direction. -/
theorem Access.allowedWhileBusy_iff {a : Access} :
    a.AllowedWhileBusy ↔ a.width = 8 ∧
      ((a.off.toNat = 0x0000 ∧ a.isWrite = false) ∨ a.off.toNat = 0x0008 ∨ a.off.toNat = 0x0010) := by
  cases a with
  | read off w =>
    simp only [Access.AllowedWhileBusy, Access.width, Access.off, Access.isWrite, Access.read.injEq, reduceCtorEq,
      BitVec.toNat_eq, BitVec.reduceToNat, or_self, exists_false, or_false, and_true]
    tauto
  | write off w v =>
    simp only [Access.AllowedWhileBusy, Access.width, Access.off, Access.isWrite, Access.write.injEq, reduceCtorEq,
      exists_or, exists_and_left, exists_eq', and_true, and_false, false_or]
    simp only [BitVec.toNat_eq, BitVec.reduceToNat]
    tauto

/-! ## Accepted and refused accesses -/

/-- R62: a legal access is 8 bytes wide at a multiple of 8. -/
theorem Access.legal_iff {a : Access} : a.legal = true ↔ a.width = 8 ∧ a.off.toNat % 8 = 0 := by
  simp [Access.legal]

/-- A command is in flight exactly when one is pending. -/
theorem State.busy_iff {s : State} : s.busy = true ↔ s.pend ≠ none := by
  simp [State.busy, Option.isSome_iff_ne_none]

/-- R64: an access reaches a target exactly when none of the four causes holds. -/
theorem route_accepts_iff {a : Access} {s : State} :
    (∃ t, a.route s = .ok t) ↔
      (a.width = 8 ∧ a.off.toNat % 8 = 0) ∧ MappedOffset s.params a.off.toNat ∧
        ¬ (a.isWrite = true ∧ a.off.toNat ∈ [0x0000, 0x0048, 0x0050, 0x0058]) ∧
        (s.pend ≠ none → a.AllowedWhileBusy) := by
  rw [← Access.legal_iff, mappedOffset_iff, ← exists_and_right, ← exists_and_left]
  refine exists_congr fun t => ?_
  rw [route_ok]
  refine and_congr_right fun hlegal => and_congr_right fun ht => ?_
  obtain ⟨hwidth, haligned⟩ := Access.legal_iff.1 hlegal
  rw [Target.readOnly_iff, State.busy_iff, Target.allowedBusy_iff, Access.allowedWhileBusy_iff,
    offset_of_targetAt haligned ht, and_iff_right hwidth]

/-- An access gets a bus error exactly when it reaches no target. -/
theorem busError_iff {a : Access} {s : State} :
    (∃ c, hostAccess a s = .fault (.busError c a.off)) ↔ ¬ ∃ t, a.route s = .ok t := by
  constructor
  · rintro ⟨c, hc⟩ ⟨t, ht⟩
    rcases hostAccess_fault hc with ⟨c', hr, -⟩ | ⟨i, -, -, -, hf⟩
    · cases ht.symm.trans hr
    · cases hf
  · intro h
    cases hr : a.route s with
    | error c => exact ⟨c, hostAccess_refused hr⟩
    | ok t => exact absurd ⟨t, hr⟩ h

/-- Settles O18: an access gets a bus error when it reaches no target, for one of the four causes. -/
theorem accessRefusedExactlyForTheFourCauses : Obligations.AccessRefusedExactlyForTheFourCauses := by
  intro s a
  rw [busError_iff, route_accepts_iff]
  tauto

/-- Settles O17: the five listed accesses are accepted in every state, and any other has the fourth cause. -/
theorem busyEngineAcceptsOnlyControlAndStatus : Obligations.BusyEngineAcceptsOnlyControlAndStatus := by
  intro s a hbusy
  refine ⟨?_, fun hnot => ?_⟩
  · rintro (rfl | rfl | rfl | ⟨v, rfl | rfl⟩)
    · exact ⟨_, hostAccess_readId s⟩
    · exact ⟨_, hostAccess_readCtrl s⟩
    · exact ⟨_, hostAccess_readStatus s⟩
    · exact ⟨_, hostAccess_writeCtrl s v⟩
    · exact ⟨_, hostAccess_writeStatus s v⟩
  · exact (accessRefusedExactlyForTheFourCauses s a).2 (.inr (.inr (.inr ⟨hbusy, hnot⟩)))

/-! ## Reads -/

/-- What the host has received plays no part in whether an access is refused. -/
@[simp] theorem route_receive (a : Access) (s : State) (v : Word) : a.route (s.receive v) = a.route s := rfl

/-- What the host has received plays no part in what a target holds. -/
@[simp] theorem readTarget_receive (s : State) (v : Word) (t : Target) :
    (s.receive v).readTarget t = s.readTarget t := by
  cases t with
  | reg r => cases r <;> rfl
  | rtab m => rfl
  | data i => rfl

/-- R27: `CMD` holds no value and reads 0. -/
theorem hostAccess_readCmd_idle {s : State} (hidle : s.pend = none) :
    hostAccess (.read 0x0018 8) s = .next (s.receive 0) :=
  hostAccess_read (route_reg .cmd rfl rfl (by simp [Access.isWrite]) fun hb => absurd hidle (State.busy_iff.1 hb)) rfl

/-- Settles O19: a read's one change is the received word, on which the next read does not depend. -/
theorem readsHaveNoSideEffect : Obligations.ReadsHaveNoSideEffect := by
  intro s
  refine ⟨fun off w t h => ?_, hostAccess_readCmd_idle⟩
  obtain ⟨tgt, hr, ⟨_, _, _, ha, -⟩ | ⟨_, _, v, -, hv, rfl⟩⟩ := hostAccess_next h
  · cases ha
  · exact ⟨v, rfl, hostAccess_read ((route_receive _ s v).trans hr) ((readTarget_receive s v tgt).trans hv)⟩

/-! ## Storing writes -/

/-- R66: the targets whose write stores its value and does nothing else. -/
def Target.stores : Target → Prop
  | .reg r => r = .mod ∨ r = .root ∨ r = .len ∨ r = .opa ∨ r = .opb
  | .rtab _ => True
  | .data _ => True

/-- The storage offsets are those of the storing targets that exist. -/
theorem exists_target_of_storageOffset {p : Params} {off : Nat} (h : StorageOffset p off) :
    ∃ t : Target, t.present p ∧ t.stores ∧ t.offset = off := by
  rcases h with ⟨k, hk, rfl⟩ | ⟨m, hm, rfl⟩ | ⟨i, hi, rfl⟩
  · interval_cases k
    · exact ⟨.reg .mod, trivial, .inl rfl, rfl⟩
    · exact ⟨.reg .root, trivial, .inr (.inl rfl), rfl⟩
    · exact ⟨.reg .len, trivial, .inr (.inr (.inl rfl)), rfl⟩
    · exact ⟨.reg .opa, trivial, .inr (.inr (.inr (.inl rfl))), rfl⟩
    · exact ⟨.reg .opb, trivial, .inr (.inr (.inr (.inr rfl))), rfl⟩
  · exact ⟨.rtab m, hm, trivial, rfl⟩
  · exact ⟨.data i, hi, trivial, rfl⟩

/-- No storing target is read-only. -/
theorem Target.stores.readOnly {t : Target} (h : t.stores) : t.readOnly = false := by
  cases t with
  | reg r => rcases h with rfl | rfl | rfl | rfl | rfl <;> rfl
  | rtab m => rfl
  | data i => rfl

/-- On an idle engine a 64-bit access at a target's offset reaches it, unless it writes a read-only one (R64, R72). -/
theorem route_idle {a : Access} {s : State} {t : Target} (hp : s.params.wf = true) (hidle : s.pend = none)
    (ht : t.present s.params) (hw : a.width = 8) (ho : a.off.toNat = t.offset)
    (hro : ¬ (a.isWrite = true ∧ t.readOnly = true)) : a.route s = .ok t := by
  refine route_ok.2 ⟨Access.legal_iff.2 ⟨hw, ?_⟩, ?_, hro, fun hb => absurd hidle (State.busy_iff.1 hb)⟩
  · rw [ho]
    exact (Target.offset_legal hp ht).2
  · rw [ho]
    exact targetAt_offset hp ht

/-- A storing write leaves what no access reaches (R69). -/
theorem writeTarget_stores_frame {t : Target} (h : t.stores) (s : State) (v : Word) :
    (s.writeTarget t v).scratch = s.scratch ∧ (s.writeTarget t v).pend = s.pend ∧
      (s.writeTarget t v).port = s.port := by
  cases t with
  | reg r => rcases h with rfl | rfl | rfl | rfl | rfl <;> exact ⟨rfl, rfl, rfl⟩
  | rtab m => exact ⟨rfl, rfl, rfl⟩
  | data i => exact ⟨rfl, rfl, rfl⟩

/-- A storing target reads as the value written to it (R66). -/
theorem readTarget_writeTarget_same {t : Target} (h : t.stores) {s : State} (ht : t.present s.params)
    (hlen : s.rtab.length = s.params.lmax) (v : Word) : (s.writeTarget t v).readTarget t = .ok v := by
  cases t with
  | reg r => rcases h with rfl | rfl | rfl | rfl | rfl <;> rfl
  | rtab m =>
    have hm : m < s.rtab.length := hlen ▸ ht
    simp [State.readTarget, State.writeTarget, hm]
  | data i => simp [State.readTarget, State.writeTarget]

/-- Every other target reads as before a storing write (R69). -/
theorem readTarget_writeTarget_other {t u : Target} (h : t.stores) (hne : u ≠ t) (s : State) (v : Word) :
    (s.writeTarget t v).readTarget u = s.readTarget u := by
  cases t with
  | reg r =>
    cases u with
    | reg q =>
      have hqr : q ≠ r := fun e => hne (e ▸ rfl)
      rcases h with rfl | rfl | rfl | rfl | rfl
      · cases q with
        | mod => exact absurd rfl hqr
        | _ => rfl
      · cases q with
        | root => exact absurd rfl hqr
        | _ => rfl
      · cases q with
        | len => exact absurd rfl hqr
        | _ => rfl
      · cases q with
        | opa => exact absurd rfl hqr
        | _ => rfl
      · cases q with
        | opb => exact absurd rfl hqr
        | _ => rfl
    | rtab m => rcases h with rfl | rfl | rfl | rfl | rfl <;> rfl
    | data i => rcases h with rfl | rfl | rfl | rfl | rfl <;> rfl
  | rtab m =>
    cases u with
    | reg q => cases q <;> rfl
    | rtab k =>
      have hk : m ≠ k := fun e => hne (e ▸ rfl)
      simp [State.readTarget, State.writeTarget, hk]
    | data i => rfl
  | data i =>
    cases u with
    | reg q => cases q <;> rfl
    | rtab m => rfl
    | data k =>
      have hk : i ≠ k := fun e => hne (e ▸ rfl)
      simp only [State.readTarget, State.writeTarget, Memory.read_write_other v hk]

/-- R69: a byte outside the eight a storing write covers lies in another target, or in none. -/
theorem byteAt_writeTarget_outside {t : Target} (h : t.stores) (s : State) (v : Word) {b : Nat}
    (hb : b < t.offset ∨ t.offset + 8 ≤ b) : (s.writeTarget t v).byteAt b = s.byteAt b := by
  unfold State.byteAt
  rw [State.writeTarget_params]
  cases hu : targetAt s.params b with
  | none => rfl
  | some u =>
    have hne : u ≠ t := by
      rintro rfl
      have := targetAt_window hu
      omega
    simp only [readTarget_writeTarget_other h hne]

/-- Settles O20: the offset is a storing target's, whose write and read an idle engine accepts. -/
theorem storingWriteIsReadBackAndChangesNothingElse : Obligations.StoringWriteIsReadBackAndChangesNothingElse := by
  intro s off v hp hlen hidle hstorage
  obtain ⟨t, ht, hst, ho⟩ := exists_target_of_storageOffset hstorage
  have hparams := s.writeTarget_params t v
  obtain ⟨hscratch, hpend, hport⟩ := writeTarget_stores_frame hst s v
  have hwrite : Access.route (.write off 8 v) s = .ok t :=
    route_idle hp hidle ht rfl ho.symm (by simp [hst.readOnly])
  have hread : Access.route (.read off 8) (s.writeTarget t v) = .ok t :=
    route_idle (hparams ▸ hp) (hpend.trans hidle) (hparams ▸ ht) rfl ho.symm (by simp [Access.isWrite])
  exact ⟨s.writeTarget t v, hostAccess_write hwrite, hostAccess_read hread (readTarget_writeTarget_same hst ht hlen v),
    fun b hb => byteAt_writeTarget_outside hst s v (ho ▸ hb), hparams, hscratch, hpend, hport⟩

end Sys2Proof.Machine

/-! PROOF. Which words select a command and what the others complete with, which commands have an absent unit, and how a
`wait` ends (spec/30_encoding.md R90 to R96, R99, spec/60_exceptions.md R280). -/

namespace Sys2Proof.Machine

/-! ## The fields of a command word -/

theorem toNat_commandOp (v : Word) : (commandOp v).toNat = v.toNat % 256 := by
  simp [commandOp]

theorem toNat_commandRsv (v : Word) : (commandRsv v).toNat = v.toNat / 256 := by
  have hlt : v.toNat / 2 ^ 8 < 2 ^ 56 := Nat.div_lt_of_lt_mul v.isLt
  calc (commandRsv v).toNat = v.toNat / 2 ^ 8 % 2 ^ 56 := by
        rw [commandRsv, BitVec.extractLsb'_toNat, Nat.shiftRight_eq_div_pow]
    _ = v.toNat / 256 := Nat.mod_eq_of_lt hlt

theorem toNat_encode (i : Instr) : (encode i).toNat = (opcode i).toNat :=
  BitVec.toNat_setWidth_of_le (by decide)

theorem commandRsv_eq_zero_iff {v : Word} : commandRsv v = 0 ↔ v.toNat / 256 = 0 := by
  rw [← toNat_commandRsv, BitVec.toNat_eq]
  rfl

/-- R90: the two fields cover the word, so a word is a command's exactly when `OP` is its opcode and `RSV` is 0. -/
theorem eq_encode_iff {v : Word} {i : Instr} : v = encode i ↔ commandOp v = opcode i ∧ commandRsv v = 0 := by
  have hop := (opcode i).isLt
  rw [commandRsv_eq_zero_iff, BitVec.toNat_eq, BitVec.toNat_eq, toNat_encode, toNat_commandOp]
  omega

/-! ## The opcode map -/

/-- R92: an opcode selects a command exactly when it is the command's own. -/
theorem decodeOp_eq_some_iff {op : BitVec 8} {i : Instr} : decodeOp op = some i ↔ op = opcode i := by
  constructor
  · intro h
    unfold decodeOp at h
    split at h <;> cases h <;> rfl
  · rintro rfl
    cases i <;> rfl

/-- R93: the assigned opcodes are those of the thirteen commands. -/
theorem opAssigned_iff {op : BitVec 8} : opAssigned op = true ↔ ∃ i, op = opcode i := by
  constructor
  · intro h
    obtain ⟨n, hn, rfl⟩ : ∃ n, op.toNat = n ∧ op = BitVec.ofNat 8 n := ⟨_, rfl, by simp⟩
    simp only [opAssigned, hn, Bool.or_eq_true, Bool.and_eq_true, decide_eq_true_eq, beq_iff_eq] at h
    simp only [← decodeOp_eq_some_iff]
    rcases h with ((h | ⟨hlo, hhi⟩) | rfl) | rfl
    · interval_cases n <;> exact ⟨_, rfl⟩
    · interval_cases n <;> exact ⟨_, rfl⟩
    · exact ⟨_, rfl⟩
    · exact ⟨_, rfl⟩
  · rintro ⟨i, rfl⟩
    cases i <;> rfl

/-- R93: the assigned opcodes, by the number in bits 7:0. -/
theorem opAssigned_commandOp_iff {v : Word} :
    opAssigned (commandOp v) = true ↔
      v.toNat % 256 ≤ 0x06 ∨ (0x10 ≤ v.toNat % 256 ∧ v.toNat % 256 ≤ 0x13) ∨ v.toNat % 256 = 0x20 ∨
        v.toNat % 256 = 0x21 := by
  simp [opAssigned, toNat_commandOp, or_assoc]

theorem decodeOp_eq_none_of_unassigned {op : BitVec 8} (h : opAssigned op = false) : decodeOp op = none := by
  refine Option.eq_none_iff_forall_ne_some.2 fun i hi => ?_
  rw [opAssigned_iff.2 ⟨i, decodeOp_eq_some_iff.1 hi⟩] at h
  cases h

/-! ## The decoder -/

/-- R93: a word decodes to a command exactly when `OP` selects it and `RSV` is 0. -/
theorem decode_eq_ok_iff {v : Word} {i : Instr} :
    decode v = .ok i ↔ decodeOp (commandOp v) = some i ∧ commandRsv v = 0 := by
  unfold decode
  cases decodeOp (commandOp v) with
  | none => simp
  | some j =>
    by_cases hrsv : commandRsv v = 0
    · simp only [hrsv, if_true, Except.ok.injEq, Option.some.injEq, and_true]
    · simp only [hrsv, if_false, reduceCtorEq, and_false]

/-- R94: `OP` is checked first. -/
theorem decode_unassigned {v : Word} (h : opAssigned (commandOp v) = false) : decode v = .error .illegalOpcode := by
  simp [decode, decodeOp_eq_none_of_unassigned h]

/-- R95: an assigned `OP` leaves the reserved bits to be checked. -/
theorem decode_reservedBits {v : Word} (hop : opAssigned (commandOp v) = true) (hrsv : commandRsv v ≠ 0) :
    decode v = .error .reservedBits := by
  obtain ⟨i, hi⟩ := opAssigned_iff.1 hop
  simp only [decode, decodeOp_eq_some_iff.2 hi, if_neg hrsv]

/-- Settles O3: `OP` selects one command, and the two fields cover the word. -/
theorem onlyTheEncodingDecodesToACommand : Obligations.OnlyTheEncodingDecodesToACommand := by
  intro v i
  rw [decode_eq_ok_iff, decodeOp_eq_some_iff, eq_encode_iff]

/-- Settles O2: a command's word is its own encoding. -/
theorem decodeOfEncodeGivesTheCommand : Obligations.DecodeOfEncodeGivesTheCommand :=
  fun i _ => (onlyTheEncodingDecodesToACommand (encode i) i).2 rfl

/-- Settles O1: each word of the table is the encoding of its row's command. -/
theorem opcodeTableWordsDecode : Obligations.OpcodeTableWordsDecode := by
  have hword (v : Word) (i : Instr) (h : v = encode i) : decode v = .ok i :=
    (onlyTheEncodingDecodesToACommand v i).2 h
  exact ⟨hword _ _ rfl, hword _ _ rfl, hword _ _ rfl, hword _ _ rfl, hword _ _ rfl, hword _ _ rfl, hword _ _ rfl,
    hword _ _ rfl, hword _ _ rfl, hword _ _ rfl, hword _ _ rfl, hword _ _ rfl, hword _ _ rfl⟩

/-! ## Completing with an error -/

/-- R244, R245: a failure changes the four fields that `State.withError` lists. -/
theorem State.failed_eq_withError (s : State) (e : ErrCode) : s.failed e = s.withError e.code := rfl

/-- R244: a word that selects no command completes with the decoder's error. -/
theorem engineStep_reject {s : State} {p : Pending} {r : Reject} (hp : s.pend = some p)
    (hr : decode p.cmd = .error r) : engineStep s = .next (s.withError (rejectCode r).code) := by
  rw [engineStep_busy hp, completeCommand, hr, ← State.failed_eq_withError]

/-- Settles O4: the three ranges are the opcodes that are not assigned. -/
theorem illegalOpcodeCompletesWithCodeOne : Obligations.IllegalOpcodeCompletesWithCodeOne := by
  intro s p hp hop
  have hunassigned : opAssigned (commandOp p.cmd) = false := by
    rw [Bool.eq_false_iff, Ne, opAssigned_commandOp_iff]
    omega
  exact engineStep_reject hp (decode_unassigned hunassigned)

/-- Settles O5: the opcode check passes, so the decoder's error is that of the reserved bits. -/
theorem reservedBitsCompleteWithCodeTwo : Obligations.ReservedBitsCompleteWithCodeTwo := by
  intro s p hp hop hrsv
  exact engineStep_reject hp
    (decode_reservedBits (opAssigned_commandOp_iff.2 hop) (mt commandRsv_eq_zero_iff.1 hrsv))

/-- R96: a command whose first check is that of an absent unit completes with `UNSUPPORTED`. -/
theorem exec_unsupported {i : Instr} {s : State} (h : firstFailure (checksOf i s) = some .unsupported) :
    exec i s = .next (s.withError 3) :=
  exec_failure h

/-- Settles O6: the unit's presence is the first check of each of the four commands. -/
theorem absentUnitsCompleteWithCodeThree : Obligations.AbsentUnitsCompleteWithCodeThree := by
  intro s
  refine ⟨exec_unsupported rfl, exec_unsupported rfl, fun hunit => ⟨exec_unsupported ?_, exec_unsupported ?_⟩⟩
  · simp [checksOf, modexpChecks, hunit]
  · simp [checksOf, rootchkChecks, hunit]

/-! ## Runs of several steps -/

theorem run_one (s : State) : Sys2Proof.core.run 1 s = step s := by
  have hstep : step s = Sys2Proof.core.step s := rfl
  simp only [Host.Core.run, hstep]
  cases Sys2Proof.core.step s <;> rfl

/-- A run that goes on from the state it has reached. -/
theorem run_add {m : Nat} {s u : State} (h : Sys2Proof.core.run m s = .next u) (n : Nat) :
    Sys2Proof.core.run (m + n) s = Sys2Proof.core.run n u := by
  induction m generalizing s with
  | zero =>
    cases h
    rw [Nat.zero_add]
  | succ m ih =>
    rw [Nat.succ_add]
    simp only [Host.Core.run] at h ⊢
    cases hs : Sys2Proof.core.step s with
    | next t =>
      rw [hs] at h
      exact ih h
    | fault r =>
      rw [hs] at h
      cases h
    | refused r =>
      rw [hs] at h
      cases h

/-- A run of one step more. -/
theorem run_succ {n : Nat} {s u : State} (h : Sys2Proof.core.run n s = .next u) :
    Sys2Proof.core.run (n + 1) s = step u :=
  (run_add h 1).trans (run_one u)

/-! ## A `wait` -/

/-- On an idle engine each step is a `STATUS` read, and `DONE` says whether it ends the `wait` (R99). -/
theorem step_wait_idle {s : State} (hidle : s.pend = none) {rest : List HostEvent}
    (hq : s.port.queue = .wait :: rest) :
    step s = .next ((s.tookEvent (if s.done then rest else .wait :: rest)).receive s.statusWord) := by
  rw [step_of_idle hidle hq, hostStep_wait]
  simp [State.busy, hidle]

/-- `s` after `n` reads of `STATUS` that a `wait` makes while the command stays in flight. -/
def State.polled (s : State) (n : Nat) : State :=
  { s with port := { s.port with received := s.port.received ++ List.replicate n s.statusWord, turn := s.port.turn + n } }

@[simp] theorem State.polled_zero (s : State) : s.polled 0 = s := by
  simp [State.polled]

theorem State.polled_succ (s : State) (n : Nat) : s.polled (n + 1) = (s.polled n).polled 1 := by
  simp [State.polled, State.statusWord, State.busy, List.replicate_succ', Nat.add_assoc]

/-- While a command is in flight and the engine has not its turn, a `wait` reads `STATUS` and stays. -/
theorem step_wait_busy {s : State} (hbusy : s.pend ≠ none) (hturn : engineFirst s.port.turn = false)
    {rest : List HostEvent} (hq : s.port.queue = .wait :: rest) : step s = .next (s.polled 1) := by
  have hmoves : engineMoves s = false := by simp [engineMoves, hturn]
  rw [step_of_host hmoves hq, hostStep_wait]
  simp [State.busy_iff.2 hbusy, ← hq, State.polled, State.tookEvent, State.receive]

/-- Before the engine's next turn, the steps of a `wait` are its reads. -/
theorem run_wait_busy {s : State} (hbusy : s.pend ≠ none) {rest : List HostEvent} (hq : s.port.queue = .wait :: rest)
    {n : Nat} (hturn : ∀ k < n, engineFirst (s.port.turn + k) = false) :
    Sys2Proof.core.run n s = .next (s.polled n) := by
  induction n with
  | zero =>
    rw [State.polled_zero]
    rfl
  | succ n ih =>
    rw [run_succ (ih fun k hk => hturn k (by omega)), State.polled_succ]
    exact step_wait_busy (s := s.polled n) hbusy (hturn n (by omega)) hq

/-- R280: the engine's next turn is a number of host steps away. -/
theorem exists_next_turn (k : Nat) :
    ∃ n, engineFirst (k + n) = true ∧ ∀ j < n, engineFirst (k + j) = false := by
  have hex : ∃ n, engineFirst (k + n) = true := by
    obtain ⟨j, hj, hfirst⟩ := engineFirst_ahead k
    exact ⟨j - k, by rwa [Nat.add_sub_cancel' hj]⟩
  exact ⟨Nat.find hex, Nat.find_spec hex, fun j hj => Bool.eq_false_iff.2 (Nat.find_min hex hj)⟩

/-- R244: the engine's step completes the command in flight, and leaves the host's side. -/
theorem engineStep_completes {s : State} (hbusy : s.pend ≠ none) :
    ∃ t, engineStep s = .next t ∧ t.pend = none ∧ t.done = true ∧ t.port = s.port := by
  obtain ⟨t, ht⟩ := engineStep_answers s
  refine ⟨t, ht, ?_⟩
  rcases engineStep_next ht with ⟨hidle, -⟩ | ⟨_, _, -, -, he⟩ | ⟨_, _, -, -, rfl⟩
  · exact absurd hidle hbusy
  · obtain ⟨_, _, _, _, _, _, _, _, rfl⟩ := exec_frame he
    exact ⟨rfl, rfl, rfl⟩
  · exact ⟨rfl, rfl, rfl⟩

/-- Settles O58: `n` is the number of host steps before the engine's next turn. -/
theorem waitReadsStatusUntilTheCommandCompletes : Obligations.WaitReadsStatusUntilTheCommandCompletes := by
  intro s rest hq
  refine ⟨fun hidle hdone => ?_, fun hidle hdone => ?_, fun hbusy => ?_⟩
  · rw [step_wait_idle hidle hq, if_pos hdone]
    rfl
  · rw [step_wait_idle hidle hq, if_neg (Bool.eq_false_iff.1 hdone)]
    rfl
  · obtain ⟨n, hturn, hbefore⟩ := exists_next_turn s.port.turn
    have hmoves : engineMoves (s.polled n) = true := by
      rw [engineMoves, Bool.and_eq_true]
      exact ⟨State.busy_iff.2 hbusy, hturn⟩
    have hreads := run_wait_busy hbusy hq hbefore
    obtain ⟨t, ht, hpend, hdone, hport⟩ := engineStep_completes (s := s.polled n) hbusy
    have hcompleted : Sys2Proof.core.run (n + 1) s = .next t := 
      (run_succ hreads).trans ((step_of_turn hmoves).trans ht)
    have hlast := step_wait_idle hpend (rest := rest) (by rw [hport]; exact hq)
    refine ⟨n, s.polled n, t, ?_, ?_, hreads, ht, hpend, hdone, hport, ?_⟩
    · simp only [State.polled, hq]
    · rw [getLsbD_statusWord]
      exact State.busy_iff.2 hbusy
    · rw [run_succ hcompleted, hlast, if_pos hdone, ← hport]
      rfl

end Sys2Proof.Machine

/-! PROOF. Which check fails a command first, that the context commands and the transforms do not see each other's
operands, and what a transform with good operands leaves (spec/40_ntt_common.md R115 to R124, spec/43_montgomery.md
R187). -/

namespace Sys2Proof.Machine

/-! ## The first failing check -/

/-- Checks that hold let the ones after them decide. -/
theorem firstFailure_append_of_hold {l : List (Bool × ErrCode)} (h : ∀ c ∈ l, c.1 = true)
    (l' : List (Bool × ErrCode)) : firstFailure (l ++ l') = firstFailure l' := by
  induction l with
  | nil => rfl
  | cons c l ih =>
    obtain ⟨ok, e⟩ := c
    obtain rfl : ok = true := h _ List.mem_cons_self
    exact ih fun c hc => h c (List.mem_cons_of_mem _ hc)

/-- A failing check hides the checks after it (R246). -/
theorem firstFailure_append_of_fail {l : List (Bool × ErrCode)} {e : ErrCode} (h : firstFailure l = some e)
    (l' : List (Bool × ErrCode)) : firstFailure (l ++ l') = some e := by
  obtain ⟨before, after, rfl, hbefore⟩ := firstFailure_eq_some.1 h
  rw [List.append_assoc, firstFailure_append_of_hold hbefore]
  rfl

/-- A command whose first failing check reports `e` completes with the code of `e`. -/
theorem exec_withError {i : Instr} {s : State} {e : ErrCode} (h : firstFailure (checksOf i s) = some e) :
    exec i s = .next (s.withError e.code) :=
  exec_failure h

theorem modOk_eq_true {s : State} (h : s.ModulusOk) : modOk s.mod.toNat = true := modOk_iff.2 h

theorem modOk_eq_false {s : State} (h : ¬ s.ModulusOk) : modOk s.mod.toNat = false :=
  Bool.eq_false_iff.2 (mt modOk_iff.1 h)

theorem rootOk_eq_false {s : State} (h : s.mod.toNat ≤ s.root.toNat) : rootOk s.root.toNat s.mod.toNat = false :=
  Bool.eq_false_iff.2 (mt rootOk_iff.1 (Nat.not_lt.2 h))

/-- Settles O33: `NOP` has no check and writes nothing. -/
theorem nopOnlyCompletes : Obligations.NopOnlyCompletes :=
  fun s => exec_success (i := .nop) (s := s) rfl

/-- Settles O31: in each clause the checks before the failing one hold. -/
theorem scalarOperandErrorsInPriorityOrder : Obligations.ScalarOperandErrorsInPriorityOrder := by
  intro s
  refine ⟨fun hm => exec_withError (e := .badModulus) ?_,
    fun hunit => ⟨fun hm => ⟨exec_withError (e := .badModulus) ?_, exec_withError (e := .badModulus) ?_⟩,
      fun hm hlen => exec_withError (e := .invalidLength) ?_,
      fun hm hlen hroot => exec_withError (e := .rootRange) ?_⟩⟩
  · simp [checksOf, modOk_eq_false hm]
  · simp [checksOf, modexpChecks, hunit, modOk_eq_false hm]
  · simp [checksOf, rootchkChecks, hunit, modOk_eq_false hm]
  · have hpow : isPow2 s.len.toNat = false := Bool.eq_false_iff.2 (mt isPow2_iff.1 hlen)
    simp [checksOf, rootchkChecks, hunit, modOk_eq_true hm, hpow]
  · simp [checksOf, rootchkChecks, hunit, modOk_eq_true hm, isPow2_iff.2 hlen, rootOk_eq_false hroot]

/-! ## The checks of a transform -/

theorem checksOf_recursive {i : Instr} (hi : isRecursive i) (s : State) :
    checksOf i s = transformChecks s ++ [(s.rtabOk, .rootRange)] := by
  rcases List.mem_pair.1 hi with rfl | rfl
  · rfl
  · rfl

theorem checksOf_iterative {i : Instr} (hi : isTransform i) (hrec : ¬ isRecursive i) (s : State) :
    checksOf i s = transformChecks s := by
  simp only [List.mem_cons, List.not_mem_nil, or_false] at hi hrec
  rcases hi with rfl | rfl | hi
  · rfl
  · rfl
  · exact absurd hi hrec

/-- The checks of every transform come first (R119, R145). -/
theorem exists_checksOf_transform {i : Instr} (hi : isTransform i) (s : State) :
    ∃ rest, checksOf i s = transformChecks s ++ rest := by
  by_cases hrec : isRecursive i
  · exact ⟨_, checksOf_recursive hrec s⟩
  · exact ⟨[], by rw [checksOf_iterative hi hrec, List.append_nil]⟩

/-- A transform reports the first failing of the three checks all transforms share. -/
theorem exec_transform_withError {i : Instr} (hi : isTransform i) {s : State} {e : ErrCode}
    (h : firstFailure (transformChecks s) = some e) : exec i s = .next (s.withError e.code) := by
  obtain ⟨rest, hrest⟩ := exists_checksOf_transform hi s
  exact exec_withError (hrest ▸ firstFailure_append_of_fail h rest)

/-- R141: `L`, from a length `2^L`. -/
theorem logLen_eq {s : State} {L : Nat} (hlen : s.len.toNat = 2 ^ L) : s.logLen = L := by
  rw [State.logLen, hlen, Nat.log2_two_pow]

/-- R145: what the check of the level roots asks of `RTAB` for a length `2^L`. -/
theorem rtabOk_iff_levelRoots {s : State} {L : Nat} (hlen : s.len.toNat = 2 ^ L) :
    s.rtabOk = true ↔ (s.latchedRtHost = true → s.LevelRootsReady L) := by
  rw [rtabOk_iff, logLen_eq hlen]
  rfl

/-- Settles O30: the three shared checks in order, then that of the level roots. -/
theorem transformErrorsInPriorityOrder : Obligations.TransformErrorsInPriorityOrder := by
  intro s p hp i hi
  refine ⟨fun hm => exec_transform_withError hi (e := .badModulus) ?_,
    fun hm hlen => exec_transform_withError hi (e := .invalidLength) ?_,
    fun hm hpow hmax hroot => exec_transform_withError hi (e := .rootRange) ?_,
    fun L hrec hrt hready hlevel => exec_withError (e := .rootRange) ?_⟩
  · simp [transformChecks, modOk_eq_false hm]
  · have hbad : lenOk s.params s.len.toNat = false := Bool.eq_false_iff.2 (mt lenOk_iff.1 hlen)
    simp [transformChecks, modOk_eq_true hm, hbad]
  · simp [transformChecks, modOk_eq_true hm, lenOk_iff.2 ⟨hpow, hmax⟩, rootOk_eq_false hroot]
  · have hbad : s.rtabOk = false := by
      rw [Bool.eq_false_iff, Ne, rtabOk_iff_levelRoots hready.2.1, latchedRtHost_of_pend hp]
      exact fun h => hlevel (h hrt)
    rw [checksOf_recursive (List.mem_pair.2 hrec), firstFailure_append_of_hold (transformChecks_hold hready), hbad]
    rfl

/-! ## The context commands and `MOD`, the transforms and the context -/

/-- Another value of `MOD`. -/
def State.withMod (s : State) (v : Word) : State := { s with mod := v }

/-- Another Montgomery context. -/
def State.withContext (s : State) (m n : Word) (b : Bool) : State :=
  { s with mctxMod := m, mctxInv := n, mctxValid := b }

/-- A transform completes alike in two states that agree on its operands and on `DATA`. -/
theorem exec_transform_congr {i : Instr} (hi : isTransform i) {s s' t : State} (f : State → State)
    (hsame : SameOperands i s s') (hdata : s'.data = s.data) (hfail : ∀ e, s'.failed e = f (s.failed e))
    (hset : ∀ d, (s'.setData d).succeeded = f (s.setData d).succeeded) (h : exec i s = .next t) :
    exec i s' = .next (f t) := by
  rw [exec_eq] at h ⊢
  refine complete_congr f (hsame.checksOf hi) hfail ?_ h
  rw [effectOf_transform hi, effectOf_transform hi]
  exact transformEffect_congr f hdata hsame.len (hsame.outputOf hi s.length_inputSeq) hset

/-- R39: the context is no operand of a transform. -/
theorem sameOperands_withContext (i : Instr) (s : State) (m n : Word) (b : Bool) :
    SameOperands i s (s.withContext m n b) where
  params := rfl
  mod := rfl
  root := rfl
  len := rfl
  levelRoots := fun _ => ⟨rfl, fun _ _ _ _ => rfl⟩

/-- Settles O40: neither the checks nor the writes of the ones read what the others' operands are. -/
theorem contextAndModulusAreIndependent : Obligations.ContextAndModulusAreIndependent := by
  intro s t
  refine ⟨fun i hi v h => ?_, fun i hi m n b h => ?_⟩
  · rw [exec_eq] at h ⊢
    simp only [List.mem_cons, List.not_mem_nil, or_false] at hi
    rcases hi with rfl | rfl | rfl
    · exact complete_congr (State.withMod · v) rfl (fun _ => rfl) rfl h
    · exact complete_congr (State.withMod · v) rfl (fun _ => rfl) rfl h
    · exact complete_congr (State.withMod · v) rfl (fun _ => rfl) rfl h
  · exact exec_transform_congr hi (State.withContext · m n b) (sameOperands_withContext i s m n b) rfl (fun _ => rfl)
      (fun _ => rfl) h

/-! ## A transform with good operands -/

/-- R73: the sequence a transform reads is `DATA[0 ..< LEN]`. -/
theorem inputSeq_eq_sequence (s : State) : s.inputSeq = s.sequence s.len.toNat :=
  List.map_map

@[simp] theorem State.length_sequence (s : State) (n : Nat) : (s.sequence n).length = n := by
  simp [State.sequence]

theorem State.getD_sequence (s : State) {n j : Nat} (h : j < n) : (s.sequence n).getD j 0 = s.dataNat j := by
  simp [State.sequence, h]

/-- With good operands and level roots no check of a transform fails, a command in flight or not. -/
theorem firstFailure_transform_of_rtabOk {i : Instr} (hi : isTransform i) {s : State} {L : Nat}
    (h : s.TransformReady L) (hrt : isRecursive i → s.rtabOk = true) : firstFailure (checksOf i s) = none := by
  by_cases hrec : isRecursive i
  · rw [checksOf_recursive hrec, firstFailure_append_of_hold (transformChecks_hold h), hrt hrec]
    rfl
  · rw [checksOf_iterative hi hrec]
    exact firstFailure_eq_none.2 (transformChecks_hold h)

/-- R119: with good operands, level roots and written input, a transform completes and writes its output to
`DATA[0 ..< LEN]`. -/
theorem exec_transform_writes {i : Instr} (hi : isTransform i) {s : State} {L : Nat} (h : s.TransformReady L)
    (hwritten : s.InputWritten) (hrt : isRecursive i → s.rtabOk = true) :
    ∃ t, exec i s = .next t ∧ TransformDone s t ∧ HoldsOutput s t (outputOf i s (s.sequence (2 ^ L))) := by
  have hc := firstFailure_transform_of_rtabOk hi h hrt
  obtain ⟨hlen, -⟩ := outputOf_length_lt hi hc
  rw [inputSeq_eq_sequence, h.2.1] at hlen
  refine ⟨_, exec_success hc, ?_, fun k => ?_⟩
  · obtain ⟨d, hd⟩ := transformEffect_setData (outputOf i s) s
    rw [effectOf_transform hi, hd]
    rfl
  · rw [State.succeeded_data, read_transformEffect hi hc, if_pos (clean_iff_inputWritten.2 hwritten),
      inputSeq_eq_sequence, h.2.1, hlen]
    by_cases hk : k < 2 ^ L
    · rw [if_pos hk, if_neg (Nat.not_le.2 hk)]
    · rw [if_neg hk, if_pos (Nat.le_of_not_lt hk)]

end Sys2Proof.Machine

/-! PROOF. The inverses of the root and of the length, and the outputs of the four transforms written out
(spec/40_ntt_common.md R112 to R120, spec/41_ntt_recursive.md R141 to R144, spec/42_ntt_iterative.md R164, R165). -/

namespace Sys2Proof.Machine

/-! ## The inverse root and the length inverse -/

theorem rinv_eq (r n N : Nat) : rinv r n N = r ^ (n - 1) % N := powMod_eq _ _ _

theorem ninv_two_pow (L N : Nat) : ninv (2 ^ L) N = ((N + 1) / 2) ^ L % N := by
  rw [ninv, powMod_eq, Nat.log2_two_pow]

theorem ninv_one (N : Nat) : ninv 1 N = 1 % N := by simpa using ninv_two_pow 0 N

/-- R112: `r · r^(n-1) = r^n`. -/
theorem mul_rinv_mod (r N : Nat) {n : Nat} (hn : 1 ≤ n) : r * rinv r n N % N = r ^ n % N := by
  rw [rinv_eq, Nat.mul_mod_mod, ← pow_succ', Nat.sub_add_cancel hn]

/-- R113: `2 · ((N+1)/2) = N + 1`, which is 1 modulo an odd `N`. -/
theorem two_pow_mul_ninv_mod {N : Nat} (hodd : N % 2 = 1) (L : Nat) : 2 ^ L * ninv (2 ^ L) N % N = 1 % N := by
  have htwo : 2 * ((N + 1) / 2) = N + 1 := by omega
  calc 2 ^ L * ninv (2 ^ L) N % N = (N + 1) ^ L % N := by rw [ninv_two_pow, Nat.mul_mod_mod, ← mul_pow, htwo]
    _ = 1 % N := by rw [Nat.pow_mod, Nat.add_mod_left, ← Nat.pow_mod, one_pow]

/-- R113, R118: the length inverse is the modular inverse of the length. -/
theorem modInverse_two_pow {N : Nat} (hodd : N % 2 = 1) (L : Nat) : modInverse (2 ^ L) N = some (ninv (2 ^ L) N) :=
  modInverse_eq_some.2 ⟨powMod_lt _ _ (by omega), two_pow_mul_ninv_mod hodd L⟩

/-- Settles O47: a value below `N` that inverts the length is the modular inverse, of which there is one. -/
theorem rootAndLengthInversesAreInverses : Obligations.RootAndLengthInversesAreInverses := by
  refine ⟨fun r n N hn _ => ⟨rinv_eq r n N, fun h => (mul_rinv_mod r N hn).trans h, ?_⟩, fun L N hodd hthree => ?_⟩
  · rw [rinv_eq, Nat.sub_self, pow_zero]
  · have hone : 1 % N = 1 := Nat.mod_eq_of_lt (by omega)
    refine ⟨ninv_two_pow L N, (ninv_one N).trans hone, fun y hy => ?_⟩
    calc 2 ^ L * y % N = 1 ↔ modInverse (2 ^ L) N = some y := by rw [modInverse_eq_some, and_iff_right hy, hone]
      _ ↔ y = ninv (2 ^ L) N := by rw [modInverse_two_pow hodd, Option.some.injEq, eq_comm]

/-! ## The output functions on a sequence of length `2^L` -/

section
variable {x : List Nat} {L : Nat} (hx : x.length = 2 ^ L) (N : Nat)
include hx

theorem length_eq_one_iff : x.length = 1 ↔ L = 0 := by simp [hx]

theorem fwdIter_eq (w : Nat) : fwdIter x N w = if L = 0 then x.map (· % N) else iterCore x N w := by
  simp only [fwdIter, length_eq_one_iff hx]

theorem fwdRec_eq (root : Nat → Nat) :
    fwdRec x N root = if L = 0 then x.map (· % N) else recCore N root L x := by
  simp only [fwdRec, length_eq_one_iff hx]
  rw [hx, Nat.log2_two_pow]

theorem invIter_eq (w : Nat) : invIter x N w = scale (iterCore x N (rinv w (2 ^ L) N)) (ninv (2 ^ L) N) N := by
  rw [invIter, hx]

theorem invRec_eq (root : Nat → Nat) : invRec x N root = scale (recCore N root L x) (ninv (2 ^ L) N) N := by
  rw [invRec, hx, Nat.log2_two_pow]

end

/-- R113, R114: scaling by the length inverse, written out. -/
theorem scale_ninv_two_pow (y : List Nat) (L N : Nat) :
    scale y (ninv (2 ^ L) N) N = y.map fun v => v * (((N + 1) / 2) ^ L % N) % N := by
  simp only [scale, mulm, ninv_two_pow]

/-- Settles O43: the two output functions, written out. -/
theorem iterativeTransformsWriteTheirOutput : Obligations.IterativeTransformsWriteTheirOutput := by
  intro s L hready hwritten x N w
  have hx : x.length = 2 ^ L := s.length_sequence _
  have hwrites (i : Instr) (hi : isTransform i) (hiter : ¬ isRecursive i) :=
    exec_transform_writes hi hready hwritten fun hrec => absurd hrec hiter
  refine ⟨?_, ?_⟩
  · rw [← fwdIter_eq hx]
    exact hwrites .nttFwdIter (by decide) (by decide)
  · rw [← scale_ninv_two_pow, ← rinv_eq, ← invIter_eq hx]
    exact hwrites .nttInvIter (by decide) (by decide)

/-! ## The level roots of the recursive transforms -/

section
variable {s : State} {p : Pending} {L : Nat} (hp : s.pend = some p) (hlen : s.len.toNat = 2 ^ L)
include hp hlen

/-- R141, with the value of `RT_HOST` latched in `PEND`. -/
theorem rootFwd_eq : s.rootFwd = fun m => if m = L then s.root.toNat
    else if p.rtHost then (s.rtab.getD m 0).toNat else s.root.toNat ^ 2 ^ (L - m) % s.mod.toNat := by
  funext m
  simp only [State.rootFwd, logLen_eq hlen, latchedRtHost_of_pend hp, State.rtabEntry, powMod_eq]

/-- R142, with the value of `RT_HOST` latched in `PEND`. -/
theorem rootInv_eq : s.rootInv = fun m => if m = L then s.root.toNat ^ (2 ^ L - 1) % s.mod.toNat
    else if p.rtHost then (s.rtab.getD m 0).toNat ^ (2 ^ m - 1) % s.mod.toNat
    else (s.root.toNat ^ (2 ^ L - 1) % s.mod.toNat) ^ 2 ^ (L - m) % s.mod.toNat := by
  funext m
  simp only [State.rootInv, logLen_eq hlen, latchedRtHost_of_pend hp, State.rtabEntry, powMod_eq, rinv_eq, hlen]

end

/-- Settles O44: the two output functions with the level roots written out. -/
theorem recursiveTransformsWriteTheirOutput : Obligations.RecursiveTransformsWriteTheirOutput := by
  intro s p L hp hready hwritten hlevel x N w winv e
  have hx : x.length = 2 ^ L := s.length_sequence _
  have hlen := hready.2.1
  have hwrites (i : Instr) (hi : isTransform i) :=
    exec_transform_writes hi hready hwritten fun _ => rtabOk_of_levelRoots hp hlen hlevel
  refine ⟨?_, ?_⟩
  · rw [← rootFwd_eq hp hlen, ← fwdRec_eq hx]
    exact hwrites .nttFwdRec (by decide)
  · rw [← scale_ninv_two_pow, ← rootInv_eq hp hlen, ← invRec_eq hx]
    exact hwrites .nttInvRec (by decide)

/-! ## Length 1 -/

/-- R120: at length 1 the forward transforms reduce, and the inverse ones scale by a factor of 1. -/
theorem outputOf_singleton {i : Instr} (hi : isTransform i) (s : State) (v : Nat) :
    outputOf i s [v] = [v % s.mod.toNat] := by
  have hx : [v].length = 2 ^ 0 := rfl
  have hscale : scale [v] (ninv (2 ^ 0) s.mod.toNat) s.mod.toNat = [v % s.mod.toNat] := by
    rw [scale_ninv_two_pow]
    simp
  simp only [List.mem_cons, List.not_mem_nil, or_false] at hi
  rcases hi with rfl | rfl | rfl | rfl
  · exact fwdIter_eq hx _ _
  · exact (invIter_eq hx _ _).trans hscale
  · exact fwdRec_eq hx _ _
  · exact (invRec_eq hx _ _).trans hscale

/-- Settles O48: there is no level root to check, and the input is one element. -/
theorem lengthOneTransformReduces : Obligations.LengthOneTransformReduces := by
  intro s v hready hv i hi
  have hlen := hready.2.1
  have hwritten : s.InputWritten := by
    intro k hk
    obtain rfl : k = 0 := by omega
    simp [hv]
  have hrt : s.rtabOk = true := (rtabOk_iff_levelRoots hlen).2 fun _ m _ hm => absurd hm (Nat.not_lt_zero m)
  have hseq : s.sequence (2 ^ 0) = [v.toNat] := by simp [State.sequence, State.dataNat, hv]
  have h := exec_transform_writes hi hready hwritten fun _ => hrt
  rwa [hseq, outputOf_singleton hi] at h

end Sys2Proof.Machine

/-! PROOF. The iterative core computes what the recursive core computes with the level roots `r^(2^(L-m))`, for every
modulus, root and sequence of length `2^L` (spec/41_ntt_recursive.md R146, spec/42_ntt_iterative.md R160 to R162). -/

namespace Sys2Proof.Machine

/-! ## Who writes an index in a stage -/

/-- Where butterfly `j` of the stage with span `ns` writes its sum; its difference goes `ns` further on (R160). -/
def iterTarget (ns j : Nat) : Nat := j / ns * ns * 2 + j % ns

/-- The butterfly of the stage with span `ns` that writes index `e`. -/
def iterSource (ns e : Nat) : Nat := e / (ns * 2) * ns + e % ns

/-- The odd half's share of butterfly `j`: `r^k · a[j + n/2]` (R160, R161). -/
def iterTwiddled (N r n ns : Nat) (a : List Nat) (j : Nat) : Nat :=
  mulm (tw r (j % ns * n / (ns * 2)) N) (a.getD (j + n / 2) 0) N

theorem iterButterfly_eq (N r n ns : Nat) (a b : List Nat) (j : Nat) :
    iterButterfly N r n ns a b j =
      (b.set (iterTarget ns j) (addm (a.getD j 0) (iterTwiddled N r n ns a j) N)).set (iterTarget ns j + ns)
        (subm (a.getD j 0) (iterTwiddled N r n ns a j) N) := rfl

/-- The two halves `c = 0, 1` of a block of `2 · ns` indexes are written by the same `ns` butterflies. -/
theorem iterSource_half {ns i c : Nat} (hi : i < ns) (hc : c < 2) (q : Nat) :
    iterSource ns (ns * (2 * q + c) + i) = q * ns + i := by
  have hdiv : (ns * (2 * q + c) + i) / ns = 2 * q + c := by
    rw [Nat.mul_add_div (by omega), Nat.div_eq_of_lt hi, Nat.add_zero]
  have hhalf : (2 * q + c) / 2 = q := by omega
  rw [iterSource, ← Nat.div_div_eq_div_mul, hdiv, hhalf, Nat.mul_add_mod, Nat.mod_eq_of_lt hi]

theorem iterSource_target {ns : Nat} (hns : 0 < ns) (j : Nat) : iterSource ns (iterTarget ns j) = j := by
  have he : iterTarget ns j = ns * (2 * (j / ns) + 0) + j % ns := by rw [iterTarget]; ring
  rw [he, iterSource_half (Nat.mod_lt j hns) (by decide), Nat.div_add_mod']

theorem iterSource_target_add {ns : Nat} (hns : 0 < ns) (j : Nat) : iterSource ns (iterTarget ns j + ns) = j := by
  have he : iterTarget ns j + ns = ns * (2 * (j / ns) + 1) + j % ns := by rw [iterTarget]; ring
  rw [he, iterSource_half (Nat.mod_lt j hns) (by decide), Nat.div_add_mod']

/-- A butterfly changes only the two indexes it writes. -/
theorem getElem?_iterButterfly_other {ns e j : Nat} (hns : 0 < ns) (he : iterSource ns e ≠ j) (N r n : Nat)
    (a b : List Nat) : (iterButterfly N r n ns a b j)[e]? = b[e]? := by
  have hsum : iterTarget ns j ≠ e := fun h => he (h ▸ iterSource_target hns j)
  have hdiff : iterTarget ns j + ns ≠ e := fun h => he (h ▸ iterSource_target_add hns j)
  rw [iterButterfly_eq, List.getElem?_set_ne hdiff, List.getElem?_set_ne hsum]

/-! ## What a stage writes -/

section
variable (N r n : Nat) {ns : Nat} (hns : 0 < ns) (a : List Nat)
include hns

/-- A butterfly whose two indexes lie in the buffer writes its sum and its difference there. -/
theorem getElem?_iterButterfly_own {b : List Nat} {j : Nat} (hb : iterTarget ns j + ns < b.length) :
    (iterButterfly N r n ns a b j)[iterTarget ns j]? = some (addm (a.getD j 0) (iterTwiddled N r n ns a j) N) ∧
      (iterButterfly N r n ns a b j)[iterTarget ns j + ns]? =
        some (subm (a.getD j 0) (iterTwiddled N r n ns a j) N) := by
  rw [iterButterfly_eq]
  refine ⟨?_, ?_⟩
  · rw [List.getElem?_set_ne (by omega), List.getElem?_set_self (by omega)]
  · rw [List.getElem?_set_self (by simpa using hb)]

/-- R162: after the butterflies below `M`, each of them is what its two indexes hold. -/
theorem getElem?_foldl_iterButterfly (b : List Nat) {M j : Nat} (hj : j < M) (hb : iterTarget ns j + ns < b.length) :
    let out := (List.range M).foldl (iterButterfly N r n ns a) b
    out[iterTarget ns j]? = some (addm (a.getD j 0) (iterTwiddled N r n ns a j) N) ∧
      out[iterTarget ns j + ns]? = some (subm (a.getD j 0) (iterTwiddled N r n ns a j) N) := by
  induction M with
  | zero => exact absurd hj (Nat.not_lt_zero j)
  | succ M ih =>
    simp only [List.range_succ, List.foldl_append, List.foldl_cons, List.foldl_nil]
    by_cases hjM : j = M
    · subst hjM
      refine getElem?_iterButterfly_own N r n hns a ?_
      exact foldl_iterButterfly_keeps (fun c => iterTarget ns j + ns < c.length) N r n ns a
        (fun c k hc => by simpa using hc) _ b hb
    · rw [getElem?_iterButterfly_other hns (by rwa [iterSource_target hns]),
        getElem?_iterButterfly_other hns (by rwa [iterSource_target_add hns])]
      exact ih (by omega)

/-- R160: what a stage over `n = 2 · h · ns` elements leaves at the two indexes that butterfly `j` writes. -/
theorem getElem?_iterStage {h j : Nat} (hn : n = ns * (2 * h)) (hj : j < n / 2) :
    (iterStage N r n ns a)[iterTarget ns j]? = some (addm (a.getD j 0) (iterTwiddled N r n ns a j) N) ∧
      (iterStage N r n ns a)[iterTarget ns j + ns]? =
        some (subm (a.getD j 0) (iterTwiddled N r n ns a j) N) := by
  have hq : j / ns + 1 ≤ h := by
    rw [hn, mul_left_comm, Nat.mul_div_cancel_left _ two_pos] at hj
    exact Nat.div_lt_of_lt_mul hj
  refine getElem?_foldl_iterButterfly N r n hns a _ hj ?_
  calc iterTarget ns j + ns = ns * (2 * (j / ns) + 1) + j % ns := by rw [iterTarget]; ring
    _ < ns * (2 * (j / ns) + 1) + ns := Nat.add_lt_add_left (Nat.mod_lt j hns) _
    _ = ns * (2 * (j / ns + 1)) := by ring
    _ ≤ n := hn ▸ Nat.mul_le_mul_left ns (Nat.mul_le_mul_left 2 hq)
    _ = (List.replicate n 0).length := List.length_replicate.symm

/-- The same by blocks: a stage combines block `q` and block `q + h` of `ns` elements into block `q` of `2 · ns`. -/
theorem getElem?_iterStage_block {h q k : Nat} (hn : n = ns * (2 * h)) (hq : q < h) (hk : k < ns) :
    let v := mulm (tw r (k * h) N) (a.getD ((q + h) * ns + k) 0) N
    (iterStage N r n ns a)[q * (2 * ns) + k]? = some (addm (a.getD (q * ns + k) 0) v N) ∧
      (iterStage N r n ns a)[q * (2 * ns) + (k + ns)]? = some (subm (a.getD (q * ns + k) 0) v N) := by
  have hhalf : n / 2 = h * ns := by rw [hn, mul_left_comm, Nat.mul_div_cancel_left _ two_pos, mul_comm]
  have hmod : (q * ns + k) % ns = k := Nat.mul_add_mod_of_lt hk
  have hj : q * ns + k < n / 2 :=
    calc q * ns + k < (q + 1) * ns := by rw [Nat.succ_mul]; exact Nat.add_lt_add_left hk _
      _ ≤ n / 2 := hhalf ▸ Nat.mul_le_mul_right ns hq
  have htarget : iterTarget ns (q * ns + k) = q * (2 * ns) + k := by
    rw [iterTarget, hmod, mul_comm q, Nat.mul_add_div hns, Nat.div_eq_of_lt hk]
    ring
  have hindex : k * n / (ns * 2) = k * h := by
    rw [hn, show k * (ns * (2 * h)) = k * h * (ns * 2) by ring, Nat.mul_div_cancel _ (by omega)]
  have hodd : q * ns + k + n / 2 = (q + h) * ns + k := by rw [hhalf]; ring
  have hstage := getElem?_iterStage N r n hns a hn hj
  rwa [iterTwiddled, htarget, hmod, hindex, hodd, add_assoc] at hstage

end

/-! ## The blocks of the iterative core are transforms of strided subsequences -/

/-- The `n` elements `x[q], x[q + d], x[q + 2d], ...`. -/
def strided (x : List Nat) (q d n : Nat) : List Nat := (List.range n).map fun i => x.getD (q + d * i) 0

theorem strided_whole (x : List Nat) : strided x 0 1 x.length = x := by
  refine List.ext_getElem (by simp [strided]) fun i h1 h2 => ?_
  simp [strided, h2]

theorem evens_strided (x : List Nat) (q d n : Nat) : evens (strided x q d (2 * n)) = strided x q (2 * d) n := by
  refine List.ext_getElem? fun i => ?_
  rw [getElem?_evens]
  by_cases hi : i < n
  · simp [strided, hi, mul_left_comm, mul_assoc]
  · simp [strided, hi]

theorem odds_strided (x : List Nat) (q d n : Nat) : odds (strided x q d (2 * n)) = strided x (q + d) (2 * d) n := by
  refine List.ext_getElem? fun i => ?_
  rw [getElem?_odds]
  by_cases hi : i < n
  · have hidx : q + d * (2 * i + 1) = q + d + 2 * d * i := by ring
    simp [strided, hi, hidx, show 2 * i + 1 < 2 * n by omega]
  · simp [strided, hi, show ¬ 2 * i + 1 < 2 * n by omega]

/-- The state of the iterative core after `t` of `L` stages: block `q` of `2^t` elements of the buffer `a` is the
recursive core's transform of the elements `x[q], x[q + 2^(L-t)], ...`. -/
def BlocksTransformed (N : Nat) (root : Nat → Nat) (x : List Nat) (L t : Nat) (a : List Nat) : Prop :=
  ∀ q < 2 ^ (L - t), ∀ i < 2 ^ t,
    a.getD (q * 2 ^ t + i) 0 = (recCore N root t (strided x q (2 ^ (L - t)) (2 ^ t))).getD i 0

/-- Before the first stage every block is one element of the input. -/
theorem blocksTransformed_zero (N : Nat) (root : Nat → Nat) (x : List Nat) (L : Nat) :
    BlocksTransformed N root x L 0 x := by
  intro q _ i hi
  obtain rfl : i = 0 := by omega
  simp [recCore, strided]

/-- After the last stage the one block is the transform of the input. -/
theorem eq_recCore_of_blocksTransformed {N : Nat} {root : Nat → Nat} {x a : List Nat} {L : Nat}
    (hx : x.length = 2 ^ L) (ha : a.length = 2 ^ L) (h : BlocksTransformed N root x L L a) :
    a = recCore N root L x := by
  have hlen := length_recCore N root L x hx
  refine List.ext_getElem (ha.trans hlen.symm) fun i h1 h2 => ?_
  have hi := h 0 (by simp) i (ha ▸ h1)
  rwa [Nat.sub_self, pow_zero, ← hx, strided_whole, zero_mul, zero_add, List.getD_eq_getElem _ _ h1,
    List.getD_eq_getElem _ _ h2] at hi

/-- The level roots of a recursive core of `L` levels have the twiddles of the powers `r^(2^(L-m))`. -/
def RootsOfPowers (N r L : Nat) (root : Nat → Nat) : Prop :=
  ∀ m, 1 ≤ m → m ≤ L → ∀ k, tw (root m) k N = tw r (k * 2 ^ (L - m)) N

section
variable {N r L : Nat} {root : Nat → Nat} (hroot : RootsOfPowers N r L root) {x : List Nat}
include hroot

/-- R161: a stage makes of the blocks' transforms the transforms of blocks of twice the length. -/
theorem blocksTransformed_iterStage {t u : Nat} (hL : L = t + 1 + u) {a : List Nat}
    (h : BlocksTransformed N root x L t a) :
    BlocksTransformed N root x L (t + 1) (iterStage N r (2 ^ L) (2 ^ t) a) := by
  have hlow : 2 ^ (L - t) = 2 * 2 ^ u := by rw [← pow_succ', show L - t = u + 1 by omega]
  have hhigh : L - (t + 1) = u := by omega
  have hn : 2 ^ L = 2 ^ t * (2 * 2 ^ u) := by rw [hL]; ring
  intro q hq i hi
  rw [hhigh] at hq ⊢
  rw [BlocksTransformed, hlow] at h
  have hstage (k : Nat) (hk : k < 2 ^ t) := getElem?_iterStage_block N r (2 ^ L) (Nat.two_pow_pos t) a hn hq hk
  simp only [← hhigh, ← hroot (t + 1) (by omega) (by omega)] at hstage
  rw [recCore, pow_succ' 2 t, evens_strided, odds_strided, List.getD_eq_getElem?_getD, List.getD_eq_getElem?_getD]
  rcases Nat.lt_or_ge i (2 ^ t) with hi' | hi'
  · rw [(hstage i hi').1, getElem?_combine_low _ _ hi', h q (by omega) i hi', hhigh, h (q + 2 ^ u) (by omega) i hi']
  · obtain ⟨k, rfl⟩ := Nat.exists_eq_add_of_le' hi'
    have hk : k < 2 ^ t := by rw [pow_succ] at hi; omega
    rw [(hstage k hk).2, getElem?_combine_high _ _ hk, h q (by omega) k hk, hhigh, h (q + 2 ^ u) (by omega) k hk]

/-- The stages from `t` on complete the transform. -/
theorem blocksTransformed_iterLoop (u : Nat) {t : Nat} (hL : L = t + u) {a : List Nat}
    (h : BlocksTransformed N root x L t a) :
    BlocksTransformed N root x L L (iterLoop N r (2 ^ L) u (2 ^ t) a) := by
  induction u generalizing t a with
  | zero =>
    obtain rfl : L = t := hL
    exact h
  | succ u ih =>
    rw [iterLoop, if_pos (Nat.pow_lt_pow_right (by decide) (by omega)), ← pow_succ]
    exact ih (by omega) (blocksTransformed_iterStage hroot (u := u) (by omega) h)

/-- R146, R167: the two cores agree on every sequence of length `2^L`. -/
theorem iterCore_eq_recCore (hx : x.length = 2 ^ L) : iterCore x N r = recCore N root L x := by
  refine eq_recCore_of_blocksTransformed hx ((length_iterCore x N r).trans hx) ?_
  rw [iterCore, hx, Nat.log2_two_pow]
  exact blocksTransformed_iterLoop hroot L (t := 0) (by omega) (blocksTransformed_zero N root x L)

/-- R146: the forward transforms are the same function. -/
theorem fwdIter_eq_fwdRec (hx : x.length = 2 ^ L) : fwdIter x N r = fwdRec x N root := by
  rw [fwdIter_eq hx, fwdRec_eq hx, iterCore_eq_recCore hroot hx]

end

/-- R146: the inverse transforms are the same function, with the powers of the inverse root. -/
theorem invIter_eq_invRec {N w L : Nat} {root : Nat → Nat} (hroot : RootsOfPowers N (rinv w (2 ^ L) N) L root)
    {x : List Nat} (hx : x.length = 2 ^ L) : invIter x N w = invRec x N root := by
  rw [invIter_eq hx, invRec_eq hx, iterCore_eq_recCore hroot hx]

/-- The level roots that the recursive transforms compute themselves (R141, R142). -/
def powerRoots (N r L m : Nat) : Nat := powMod r (2 ^ (L - m)) N

theorem rootsOfPowers_powerRoots (N r L : Nat) : RootsOfPowers N r L (powerRoots N r L) := by
  intro m _ _ k
  rw [tw, tw, powerRoots, powMod_eq, powMod_eq, powMod_eq, ← Nat.pow_mod, ← pow_mul, mul_comm]

end Sys2Proof.Machine

/-! PROOF. The recursive core in the integers modulo `N`: it is linear, and with a root of order `2^L` and its powers as
level roots it is the number-theoretic transform (spec/40_ntt_common.md R118, R125). -/

namespace Sys2Proof.Machine

/-! ## From the integers modulo `N` back to numbers -/

/-- Two sequences below `N` that agree modulo `N` are equal. -/
theorem eq_of_getD_zmod {N : Nat} {y z : List Nat} (hlen : y.length = z.length) (hy : ∀ v ∈ y, v < N)
    (hz : ∀ v ∈ z, v < N) (h : ∀ k < y.length, (y.getD k 0 : ZMod N) = z.getD k 0) : y = z := by
  refine List.ext_getElem hlen fun k h1 h2 => ?_
  have hk := h k h1
  rw [List.getD_eq_getElem _ _ h1, List.getD_eq_getElem _ _ h2, ZMod.natCast_eq_natCast_iff] at hk
  exact Nat.ModEq.eq_of_lt_of_lt hk (hy _ (List.getElem_mem h1)) (hz _ (List.getElem_mem h2))

/-- The indexes below `2^(m+1)` are those below `2^m` and the same again, `2^m` further on. -/
theorem forall_lt_two_pow_succ {P : Nat → Prop} {m : Nat} (h : ∀ k < 2 ^ m, P k ∧ P (k + 2 ^ m)) :
    ∀ k < 2 ^ (m + 1), P k := by
  intro k hk
  rcases Nat.lt_or_ge k (2 ^ m) with hlow | hhigh
  · exact (h k hlow).1
  · obtain ⟨k, rfl⟩ := Nat.exists_eq_add_of_le' hhigh
    exact (h k (by rw [pow_succ] at hk; omega)).2

/-! ## The combine step and linearity -/

/-- R140: both halves of the combine step modulo `N`. -/
theorem getD_combine_zmod {N : Nat} (hN : 0 < N) (r : Nat) (E O : List Nat) {h k : Nat} (hk : k < h) :
    ((combine N r h E O).getD k 0 : ZMod N) = E.getD k 0 + r ^ k * O.getD k 0 ∧
      ((combine N r h E O).getD (k + h) 0 : ZMod N) = E.getD k 0 - r ^ k * O.getD k 0 := by
  rw [List.getD_eq_getElem?_getD, List.getD_eq_getElem?_getD (i := k + h), getElem?_combine_low E O hk,
    getElem?_combine_high E O hk, Option.getD_some, Option.getD_some, addm_zmod, subm_zmod _ _ hN, mulm_zmod, tw,
    powMod_zmod]
  exact ⟨rfl, rfl⟩

/-- R125: the core of a sum is the sum of the cores, for every modulus and all level roots. -/
theorem recCore_add {N : Nat} (hN : 0 < N) (root : Nat → Nat) (m : Nat) {a b c : List Nat}
    (h : ∀ i, (c.getD i 0 : ZMod N) = a.getD i 0 + b.getD i 0) :
    ∀ k < 2 ^ m, ((recCore N root m c).getD k 0 : ZMod N) =
      (recCore N root m a).getD k 0 + (recCore N root m b).getD k 0 := by
  induction m generalizing a b c with
  | zero => exact fun k _ => h k
  | succ m ih =>
    have hE := ih (a := evens a) (b := evens b) (c := evens c) fun i => by
      rw [getD_evens, getD_evens, getD_evens, h]
    have hO := ih (a := odds a) (b := odds b) (c := odds c) fun i => by
      rw [getD_odds, getD_odds, getD_odds, h]
    refine forall_lt_two_pow_succ fun k hk => ?_
    simp only [recCore, (getD_combine_zmod hN _ _ _ hk).1, (getD_combine_zmod hN _ _ _ hk).2, hE k hk, hO k hk]
    exact ⟨by ring, by ring⟩

/-- R143: the forward transform is the core modulo `N`, at length 1 too. -/
theorem getD_fwdRec_zmod {N L : Nat} (root : Nat → Nat) {x : List Nat} (hx : x.length = 2 ^ L) {k : Nat}
    (hk : k < 2 ^ L) : ((fwdRec x N root).getD k 0 : ZMod N) = (recCore N root L x).getD k 0 := by
  rw [fwdRec_eq hx]
  split
  · subst L
    obtain ⟨v, rfl⟩ := List.length_eq_one_iff.1 hx
    obtain rfl : k = 0 := by omega
    simp [recCore]
  · rfl

/-- R125: the forward recursive transform is linear modulo `N`. -/
theorem getD_fwdRec_add {N L : Nat} (hN : 0 < N) (root : Nat → Nat) {a b c : List Nat} (ha : a.length = 2 ^ L)
    (hb : b.length = 2 ^ L) (hc : c.length = 2 ^ L) (h : ∀ i, c.getD i 0 = a.getD i 0 + b.getD i 0) {k : Nat}
    (hk : k < 2 ^ L) :
    (fwdRec c N root).getD k 0 = ((fwdRec a N root).getD k 0 + (fwdRec b N root).getD k 0) % N := by
  have hlt : (fwdRec c N root).getD k 0 < N := by
    rw [List.getD_eq_getElem _ _ (by rwa [length_fwdRec hc, hc])]
    exact fwdRec_lt hN root hc _ (List.getElem_mem _)
  have hmod : ((fwdRec c N root).getD k 0 : ZMod N) =
      ((fwdRec a N root).getD k 0 + (fwdRec b N root).getD k 0 : Nat) := by
    rw [Nat.cast_add, getD_fwdRec_zmod root ha hk, getD_fwdRec_zmod root hb hk, getD_fwdRec_zmod root hc hk]
    exact recCore_add hN root L (fun i => by rw [h, Nat.cast_add]) k hk
  rw [← (ZMod.natCast_eq_natCast_iff' _ _ _).1 hmod, Nat.mod_eq_of_lt hlt]

/-- Settles O54: the recursive transform is linear for all level roots, those of the iterative one among them. -/
theorem forwardTransformsAreLinear : Obligations.ForwardTransformsAreLinear := by
  intro N w L root a b c hN ha hb hc h k hk
  have hroots := rootsOfPowers_powerRoots N w L
  refine ⟨?_, getD_fwdRec_add hN root ha hb hc h hk⟩
  rw [fwdIter_eq_fwdRec hroots ha, fwdIter_eq_fwdRec hroots hb, fwdIter_eq_fwdRec hroots hc]
  exact getD_fwdRec_add hN _ ha hb hc h hk

/-! ## The number-theoretic transform -/

/-- `Σ_j x[j] · w^(jk)` over `j < n`, in the integers modulo `N` (R125). -/
def dft {N : Nat} (w : ZMod N) (x : List Nat) (n k : Nat) : ZMod N :=
  ∑ j ∈ Finset.range n, (x.getD j 0 : ZMod N) * w ^ (j * k)

theorem sum_range_two_mul {M : Type} [AddCommMonoid M] (f : Nat → M) (n : Nat) :
    ∑ j ∈ Finset.range (2 * n), f j = ∑ j ∈ Finset.range n, (f (2 * j) + f (2 * j + 1)) := by
  induction n with
  | zero => rfl
  | succ n ih => rw [Nat.mul_succ, Finset.sum_range_succ, Finset.sum_range_succ, Finset.sum_range_succ, ih, add_assoc]

/-- The even and the odd half of a transform of twice the length. -/
theorem dft_two_mul {N : Nat} (w : ZMod N) (x : List Nat) (n k : Nat) :
    dft w x (2 * n) k = dft (w ^ 2) (evens x) n k + w ^ k * dft (w ^ 2) (odds x) n k := by
  simp only [dft, sum_range_two_mul, Finset.sum_add_distrib, Finset.mul_sum, getD_evens, getD_odds]
  congr 1
  · exact Finset.sum_congr rfl fun j _ => by ring
  · exact Finset.sum_congr rfl fun j _ => by ring

/-- A transform repeats itself after the order of its root. -/
theorem dft_add_period {N n : Nat} {w : ZMod N} (hw : w ^ n = 1) (x : List Nat) (m k : Nat) :
    dft w x m (k + n) = dft w x m k := by
  refine Finset.sum_congr rfl fun j _ => ?_
  rw [mul_add, pow_add, mul_comm j n, pow_mul w n, hw, one_pow, mul_one]

/-- The level roots of `L` levels are the powers `w^(2^(L-m))` modulo `N` (R125). -/
def ChainedRoots {N : Nat} (w : ZMod N) (L : Nat) (root : Nat → Nat) : Prop :=
  ∀ m, 1 ≤ m → m ≤ L → (root m : ZMod N) = w ^ 2 ^ (L - m)

theorem chainedRoots_powerRoots (N r L : Nat) : ChainedRoots (r : ZMod N) L (powerRoots N r L) :=
  fun _ _ _ => powMod_zmod _ _ _

section
variable {N : Nat} [Fact N.Prime] {w : ZMod N}

/-- Half a turn is a change of sign. -/
theorem pow_half_eq_neg_one {L : Nat} (hw : IsPrimitiveRoot w (2 ^ (L + 1))) : w ^ 2 ^ L = -1 :=
  (hw.pow (Nat.two_pow_pos _) (pow_succ 2 L)).eq_neg_one_of_two_right

/-- R125: with chained level roots the recursive core is the transform. -/
theorem recCore_dft {L : Nat} (hw : IsPrimitiveRoot w (2 ^ L)) {root : Nat → Nat} (hroot : ChainedRoots w L root)
    (x : List Nat) : ∀ k < 2 ^ L, ((recCore N root L x).getD k 0 : ZMod N) = dft w x (2 ^ L) k := by
  have hN : 0 < N := (Fact.out : N.Prime).pos
  induction L generalizing w x with
  | zero =>
    intro k hk
    obtain rfl : k = 0 := by omega
    simp [recCore, dft]
  | succ L ih =>
    have hsquare : IsPrimitiveRoot (w ^ 2) (2 ^ L) := hw.pow (Nat.two_pow_pos _) (pow_succ' 2 L)
    have hchain : ChainedRoots (w ^ 2) L root := by
      intro m h1 hm
      rw [hroot m h1 (by omega), ← pow_mul, ← pow_succ', Nat.sub_add_comm hm]
    have htop : (root (L + 1) : ZMod N) = w := by simpa using hroot (L + 1) (by omega) le_rfl
    refine forall_lt_two_pow_succ fun k hk => ?_
    obtain ⟨hlow, hhigh⟩ := getD_combine_zmod hN (root (L + 1)) (recCore N root L (evens x))
      (recCore N root L (odds x)) hk
    rw [recCore, hlow, hhigh, htop, ih hsquare hchain (evens x) k hk, ih hsquare hchain (odds x) k hk, pow_succ' 2 L,
      dft_two_mul, dft_two_mul, dft_add_period hsquare.pow_eq_one, dft_add_period hsquare.pow_eq_one, pow_add,
      pow_half_eq_neg_one hw]
    exact ⟨rfl, by ring⟩

/-- Distinct powers of the root are orthogonal. -/
theorem sum_pow_mul_inv_pow {n : Nat} (hw : IsPrimitiveRoot w n) {i j : Nat} (hi : i < n) (hj : j < n) :
    ∑ k ∈ Finset.range n, w ^ (i * k) * w⁻¹ ^ (k * j) = if i = j then (n : ZMod N) else 0 := by
  have hne : w ≠ 0 := hw.ne_zero (by omega)
  have hpow (k : Nat) : w ^ (i * k) * w⁻¹ ^ (k * j) = (w ^ i * w⁻¹ ^ j) ^ k := by ring
  simp only [hpow]
  split
  · subst i
    simp [hne]
  · rename_i hij
    have hroot : (w ^ i * w⁻¹ ^ j) ^ n = 1 := by
      rw [mul_pow, ← pow_mul, ← pow_mul, mul_comm i, mul_comm j, pow_mul, pow_mul, inv_pow, hw.pow_eq_one, inv_one,
        one_pow, one_pow, one_mul]
    have hone : w ^ i * w⁻¹ ^ j - 1 ≠ 0 := by
      intro h0
      rw [sub_eq_zero, inv_pow, mul_inv_eq_one₀ (pow_ne_zero _ hne)] at h0
      exact hij (hw.pow_inj hi hj h0)
    have hsum := mul_geom_sum (w ^ i * w⁻¹ ^ j) n
    rw [hroot, sub_self] at hsum
    exact (mul_eq_zero.1 hsum).resolve_left hone

/-- The transform with the inverse root of a transform is the input, `n` times (R125). -/
theorem dft_inv_dft {n : Nat} (hw : IsPrimitiveRoot w n) {x X : List Nat}
    (hX : ∀ k < n, (X.getD k 0 : ZMod N) = dft w x n k) {j : Nat} (hj : j < n) :
    dft w⁻¹ X n j = n * x.getD j 0 := by
  calc dft w⁻¹ X n j
      = ∑ k ∈ Finset.range n, ∑ i ∈ Finset.range n, (x.getD i 0 : ZMod N) * (w ^ (i * k) * w⁻¹ ^ (k * j)) :=
        Finset.sum_congr rfl fun k hk => by
          rw [hX k (Finset.mem_range.1 hk), dft, Finset.sum_mul]
          simp only [mul_assoc]
    _ = ∑ i ∈ Finset.range n, (x.getD i 0 : ZMod N) * ∑ k ∈ Finset.range n, w ^ (i * k) * w⁻¹ ^ (k * j) := by
        rw [Finset.sum_comm]
        simp only [Finset.mul_sum]
    _ = ∑ i ∈ Finset.range n, (x.getD i 0 : ZMod N) * if i = j then (n : ZMod N) else 0 :=
        Finset.sum_congr rfl fun i hi => by rw [sum_pow_mul_inv_pow hw (Finset.mem_range.1 hi) hj]
    _ = n * x.getD j 0 := by simp [hj, mul_comm]

end

end Sys2Proof.Machine

/-! PROOF. With a prime modulus, a root of order `LEN` and chained level roots, the forward transforms are `NAIVE_FWD`,
the inverse ones `NAIVE_INV`, and the two undo each other (spec/40_ntt_common.md R118, R125). -/

namespace Sys2Proof.Machine

/-! ## The naive transforms in the integers modulo `N` -/

theorem list_sum_range (f : Nat → Nat) (n : Nat) : ((List.range n).map f).sum = ∑ j ∈ Finset.range n, f j := rfl

/-- R118: `NAIVE_FWD` with the exact powers of the root. -/
theorem naiveFwd_eq (x : List Nat) (N w : Nat) : naiveFwd x N w =
    (List.range x.length).map fun k => (∑ j ∈ Finset.range x.length, x.getD j 0 * w ^ (j * k)) % N := by
  refine List.map_congr_left fun k _ => ?_
  rw [list_sum_range, ← ZMod.natCast_eq_natCast_iff']
  push_cast [powMod_zmod]
  rfl

@[simp] theorem length_naiveFwd (x : List Nat) (N w : Nat) : (naiveFwd x N w).length = x.length := by simp [naiveFwd]

theorem naiveFwd_lt {N : Nat} (hN : 0 < N) (x : List Nat) (w : Nat) : ∀ v ∈ naiveFwd x N w, v < N := by
  intro v hv
  obtain ⟨k, -, rfl⟩ := List.mem_map.1 hv
  exact Nat.mod_lt _ hN

theorem getD_naiveFwd_zmod (x : List Nat) (N w : Nat) {k : Nat} (hk : k < x.length) :
    ((naiveFwd x N w).getD k 0 : ZMod N) = dft (w : ZMod N) x x.length k := by
  simp [naiveFwd_eq, hk, dft]

/-- R118: `NAIVE_INV` with the two inverses it uses. -/
theorem naiveInv_eq {X : List Nat} {N w wi ni : Nat} (hw : modInverse w N = some wi)
    (hn : modInverse X.length N = some ni) : naiveInv X N w = some ((List.range X.length).map fun j =>
      ni * (∑ k ∈ Finset.range X.length, X.getD k 0 * powMod wi (j * k) N) % N) := by
  simp only [naiveInv, hw, hn, list_sum_range]

/-- A sequence below `N` that is `NAIVE_INV` modulo `N` is `NAIVE_INV`. -/
theorem naiveInv_eq_of_zmod {X y : List Nat} {N w wi ni : Nat} (hw : modInverse w N = some wi)
    (hn : modInverse X.length N = some ni) (hlen : y.length = X.length) (hy : ∀ v ∈ y, v < N)
    (h : ∀ j < X.length, (y.getD j 0 : ZMod N) = ni * dft (wi : ZMod N) X X.length j) : naiveInv X N w = some y := by
  have hN : 0 < N := Nat.zero_lt_of_lt (modInverse_eq_some.1 hw).1
  rw [naiveInv_eq hw hn, Option.some.injEq]
  refine (eq_of_getD_zmod (by simp [hlen]) hy ?_ fun j hj => ?_).symm
  · intro v hv
    obtain ⟨k, -, rfl⟩ := List.mem_map.1 hv
    exact Nat.mod_lt _ hN
  · rw [hlen] at hj
    rw [h j hj]
    simp [hj, dft, powMod_zmod, mul_comm j]

/-! ## With a prime modulus and a root of order `2^L` -/

theorem getD_invRec_zmod {N L : Nat} (root : Nat → Nat) {x : List Nat} (hx : x.length = 2 ^ L) {j : Nat}
    (hj : j < 2 ^ L) :
    ((invRec x N root).getD j 0 : ZMod N) = ninv (2 ^ L) N * (recCore N root L x).getD j 0 := by
  have hlen := length_recCore N root L x hx
  simp [invRec_eq hx, scale, hlen, hj, mulm_zmod, mul_comm]

section
variable {N L w : Nat} [Fact N.Prime] (hw : IsPrimitiveRoot (w : ZMod N) (2 ^ L)) {x : List Nat}
  (hx : x.length = 2 ^ L)

omit hw in
/-- The last power of a value before 1 is its inverse. -/
theorem pow_pred_eq_inv {a : ZMod N} {n : Nat} (hn : 1 ≤ n) (h : a ^ n = 1) : a ^ (n - 1) = a⁻¹ := by
  refine eq_inv_of_mul_eq_one_left ?_
  rw [← pow_succ, Nat.sub_add_cancel hn, h]

include hw

/-- R112: the inverse root modulo `N`. -/
theorem rinv_zmod : (rinv w (2 ^ L) N : ZMod N) = (w : ZMod N)⁻¹ := by
  rw [rinv, powMod_zmod, pow_pred_eq_inv Nat.one_le_two_pow hw.pow_eq_one]

/-- R112, R118: the inverse root is the modular inverse of the root. -/
theorem modInverse_root : modInverse w N = some (rinv w (2 ^ L) N) := by
  have hN : 0 < N := (Fact.out : N.Prime).pos
  refine modInverse_eq_some.2 ⟨powMod_lt _ _ hN, ?_⟩
  rw [mul_rinv_mod w N Nat.one_le_two_pow, ← ZMod.natCast_eq_natCast_iff', Nat.cast_pow, hw.pow_eq_one, Nat.cast_one]

include hx

/-- R125: the forward recursive transform is `NAIVE_FWD`. -/
theorem fwdRec_eq_naiveFwd {root : Nat → Nat} (hroot : ChainedRoots (w : ZMod N) L root) :
    fwdRec x N root = naiveFwd x N w := by
  have hN : 0 < N := (Fact.out : N.Prime).pos
  refine eq_of_getD_zmod (by rw [length_fwdRec hx, length_naiveFwd]) (fwdRec_lt hN root hx) (naiveFwd_lt hN x w) ?_
  intro k hk
  rw [length_fwdRec hx, hx] at hk
  rw [getD_fwdRec_zmod root hx hk, recCore_dft hw hroot x k hk, getD_naiveFwd_zmod x N w (hx ▸ hk), hx]

/-- R125: the inverse recursive transform is `NAIVE_INV`. -/
theorem naiveInv_eq_invRec (hodd : N % 2 = 1) {root : Nat → Nat} (hroot : ChainedRoots (w : ZMod N)⁻¹ L root) :
    naiveInv x N w = some (invRec x N root) := by
  have hN : 0 < N := (Fact.out : N.Prime).pos
  refine naiveInv_eq_of_zmod (modInverse_root hw) (hx ▸ modInverse_two_pow hodd L) (length_invRec hx N root)
    (invRec_lt hN root x) fun j hj => ?_
  rw [hx] at hj ⊢
  rw [getD_invRec_zmod root hx hj, recCore_dft hw.inv hroot x j hj, rinv_zmod hw]

/-- R125: `NAIVE_INV` gives back what `NAIVE_FWD` transformed, reduced modulo `N`. -/
theorem naiveInv_naiveFwd (hodd : N % 2 = 1) :
    naiveInv (naiveFwd x N w) N w = some (x.map (· % N)) := by
  have hN : 0 < N := (Fact.out : N.Prime).pos
  have hX : (naiveFwd x N w).length = 2 ^ L := (length_naiveFwd x N w).trans hx
  have hninv : (ninv (2 ^ L) N : ZMod N) * (2 ^ L : Nat) = 1 := by
    rw [mul_comm, ← Nat.cast_mul, ← Nat.cast_one, ZMod.natCast_eq_natCast_iff', two_pow_mul_ninv_mod hodd]
  refine naiveInv_eq_of_zmod (modInverse_root hw) (hX ▸ modInverse_two_pow hodd L) (by simp) ?_ fun j hj => ?_
  · intro v hv
    obtain ⟨u, -, rfl⟩ := List.mem_map.1 hv
    exact Nat.mod_lt _ hN
  · rw [hX] at hj ⊢
    rw [rinv_zmod hw, dft_inv_dft hw (fun k hk => (getD_naiveFwd_zmod x N w (hx ▸ hk)).trans (by rw [hx])) hj,
      ← mul_assoc, hninv, one_mul]
    simp [hx, hj]

end

/-! ## The level roots of a state -/

section
variable {s : State} {L : Nat}

/-- Chained level roots are powers modulo `MOD`, so they pass the check of R145. -/
theorem rtabOk_of_chained (hready : s.TransformReady L) {i : Instr}
    (hroots : s.HostRootsMeet i (s.LevelRootsChained L)) (hi : isRecursive i) : s.rtabOk = true := by
  obtain ⟨p, hp, hchained⟩ := hroots hi
  obtain ⟨⟨-, hthree⟩, hlen, -, -⟩ := hready
  refine rtabOk_of_levelRoots hp hlen fun hrt m h1 hm => ?_
  rw [hchained hrt m h1 hm]
  exact Nat.mod_lt _ (by omega)

variable {p : Pending} (hp : s.pend = some p) (hlen : s.len.toNat = 2 ^ L)
  (hchained : p.rtHost = true → s.LevelRootsChained L)
include hp hlen hchained

/-- R141: the forward level roots are the powers of the root. -/
theorem chainedRoots_rootFwd : ChainedRoots (s.root.toNat : ZMod s.mod.toNat) L s.rootFwd := by
  intro m h1 hm
  rw [rootFwd_eq hp hlen]
  dsimp only
  split_ifs with htop hrt
  · simp [htop]
  · rw [hchained hrt m h1 (by omega)]
    simp
  · simp

/-- R142: the inverse level roots are the powers of the inverse root. -/
theorem chainedRoots_rootInv [Fact s.mod.toNat.Prime]
    (hw : IsPrimitiveRoot (s.root.toNat : ZMod s.mod.toNat) (2 ^ L)) :
    ChainedRoots (s.root.toNat : ZMod s.mod.toNat)⁻¹ L s.rootInv := by
  have hinv := pow_pred_eq_inv Nat.one_le_two_pow hw.pow_eq_one
  intro m h1 hm
  rw [rootInv_eq hp hlen]
  dsimp only
  split_ifs with htop hrt
  · simp [htop, hinv]
  · have hone : ((s.root.toNat : ZMod s.mod.toNat) ^ 2 ^ (L - m)) ^ 2 ^ m = 1 := by
      rw [← pow_mul, ← pow_add, Nat.sub_add_cancel hm, hw.pow_eq_one]
    rw [hchained hrt m h1 (by omega)]
    simp [pow_pred_eq_inv Nat.one_le_two_pow hone]
  · simp [hinv]

end

/-! ## The four commands -/

section
variable {s : State} {L : Nat} (hready : s.TransformReady L) (hprime : s.mod.toNat.Prime)
  (horder : orderOf (s.root.toNat : ZMod s.mod.toNat) = 2 ^ L)
include hready hprime horder

/-- R125: the output function of either forward transform is `NAIVE_FWD`. -/
theorem outputOf_forward {i : Instr} (hi : i ∈ [Instr.nttFwdIter, .nttFwdRec])
    (hroots : s.HostRootsMeet i (s.LevelRootsChained L)) {x : List Nat} (hx : x.length = 2 ^ L) :
    outputOf i s x = naiveFwd x s.mod.toNat s.root.toNat := by
  have := Fact.mk hprime
  have hw : IsPrimitiveRoot (s.root.toNat : ZMod s.mod.toNat) (2 ^ L) := horder ▸ IsPrimitiveRoot.orderOf _
  rcases List.mem_pair.1 hi with rfl | rfl
  · exact (fwdIter_eq_fwdRec (rootsOfPowers_powerRoots _ _ L) hx).trans
      (fwdRec_eq_naiveFwd hw hx (chainedRoots_powerRoots _ _ L))
  · obtain ⟨p, hp, hchained⟩ := hroots (by decide)
    exact fwdRec_eq_naiveFwd hw hx (chainedRoots_rootFwd hp hready.2.1 hchained)

/-- R125: the output function of either inverse transform is `NAIVE_INV`. -/
theorem outputOf_inverse {i : Instr} (hi : i ∈ [Instr.nttInvIter, .nttInvRec])
    (hroots : s.HostRootsMeet i (s.LevelRootsChained L)) {x : List Nat} (hx : x.length = 2 ^ L) :
    naiveInv x s.mod.toNat s.root.toNat = some (outputOf i s x) := by
  have := Fact.mk hprime
  have hw : IsPrimitiveRoot (s.root.toNat : ZMod s.mod.toNat) (2 ^ L) := horder ▸ IsPrimitiveRoot.orderOf _
  obtain ⟨⟨hodd, -⟩, hlen, -, -⟩ := hready
  rcases List.mem_pair.1 hi with rfl | rfl
  · have hroot := chainedRoots_powerRoots s.mod.toNat (rinv s.root.toNat (2 ^ L) s.mod.toNat) L
    rw [rinv_zmod hw] at hroot
    rw [naiveInv_eq_invRec hw hx hodd hroot, ← invIter_eq_invRec (rootsOfPowers_powerRoots _ _ L) hx]
    rfl
  · obtain ⟨p, hp, hchained⟩ := hroots (by decide)
    exact naiveInv_eq_invRec hw hx hodd (chainedRoots_rootInv hp hlen hchained hw)

variable (hwritten : s.InputWritten)
include hwritten

/-- R125: either forward transform writes `NAIVE_FWD` of its input. -/
theorem exec_forward {i : Instr} (hi : i ∈ [Instr.nttFwdIter, .nttFwdRec])
    (hroots : s.HostRootsMeet i (s.LevelRootsChained L)) : ∃ t, exec i s = .next t ∧ TransformDone s t ∧
      HoldsOutput s t (naiveFwd (s.sequence (2 ^ L)) s.mod.toNat s.root.toNat) := by
  have hi' : isTransform i := by rcases List.mem_pair.1 hi with rfl | rfl <;> decide
  have h := exec_transform_writes hi' hready hwritten (rtabOk_of_chained hready hroots)
  rwa [outputOf_forward hready hprime horder hi hroots (s.length_sequence _)] at h

/-- R125: either inverse transform writes `NAIVE_INV` of its input, which is defined. -/
theorem exec_inverse {i : Instr} (hi : i ∈ [Instr.nttInvIter, .nttInvRec])
    (hroots : s.HostRootsMeet i (s.LevelRootsChained L)) {y : List Nat}
    (hy : naiveInv (s.sequence (2 ^ L)) s.mod.toNat s.root.toNat = some y) :
    ∃ t, exec i s = .next t ∧ TransformDone s t ∧ HoldsOutput s t y := by
  have hi' : isTransform i := by rcases List.mem_pair.1 hi with rfl | rfl <;> decide
  have h := exec_transform_writes hi' hready hwritten (rtabOk_of_chained hready hroots)
  rw [outputOf_inverse hready hprime horder hi hroots (s.length_sequence _), Option.some.injEq] at hy
  rwa [hy] at h

end

/-- Settles O52: `NAIVE_FWD` of the input, its powers written out. -/
theorem forwardTransformsAreTheNumberTheoreticTransform :
    Obligations.ForwardTransformsAreTheNumberTheoreticTransform := by
  intro s L hready hwritten hprime horder X
  have hX : naiveFwd (s.sequence (2 ^ L)) s.mod.toNat s.root.toNat = X := by
    rw [naiveFwd_eq, s.length_sequence]
    refine List.map_congr_left fun k _ => congrArg (· % s.mod.toNat) (Finset.sum_congr rfl fun j hj => ?_)
    rw [s.getD_sequence (Finset.mem_range.1 hj)]
  exact ⟨hX, fun i hi hroots => hX ▸ exec_forward hready hprime horder hwritten hi hroots⟩

/-- R118: `NAIVE_INV` asks for the two inverses and for nothing else. -/
theorem naiveInv_isSome (X : List Nat) (N w : Nat) : (naiveInv X N w).isSome = true ↔
    (modInverse w N).isSome = true ∧ (modInverse X.length N).isSome = true := by
  unfold naiveInv
  cases modInverse w N with
  | none => simp
  | some wi =>
    cases modInverse X.length N with
    | none => simp
    | some ni => simp

/-- Settles O60: the inverses exist under R125, and the iterative command, which needs no level roots, is a witness. -/
theorem inverseTransformsAreTheNaiveInverse : Obligations.InverseTransformsAreTheNaiveInverse := by
  refine ⟨fun X N w hN => ?_, fun s L hready hwritten hprime horder => ?_⟩
  · rw [naiveInv_isSome, modInverse_isSome hN, modInverse_isSome hN]
  · have hy := outputOf_inverse hready hprime horder (i := .nttInvIter) (by decide) (fun h => absurd h (by decide))
      (s.length_sequence (2 ^ L))
    exact ⟨_, hy, fun i hi hroots => exec_inverse hready hprime horder hwritten hi hroots hy⟩

/-! ## A forward transform and its inverse -/

/-- Two outputs of the same length, one over the other. -/
theorem HoldsOutput.trans {s t u : State} {y z : List Nat} (h : HoldsOutput s t y) (h' : HoldsOutput t u z)
    (hlen : z.length = y.length) : HoldsOutput s u z := by
  intro k
  rw [h' k, h k, hlen]
  split <;> rfl

/-- An output of words is the sequence that the next transform reads. -/
theorem HoldsOutput.sequence_eq {s t : State} {y : List Nat} (h : HoldsOutput s t y) (hy : ∀ v ∈ y, v < 2 ^ 64) :
    t.sequence y.length = y := by
  refine List.ext_getElem (by simp) fun k h1 h2 => ?_
  have hk := hy _ (List.getElem_mem h2)
  simpa [State.sequence, State.dataNat, h k, h2] using hk

/-- `s` after a transform that left `d`, with its command in flight again. -/
def State.withData (s : State) (d : Memory) : State := { s with data := d, scratch := [], done := true }

theorem withPend_of_transformDone {s t : State} (h : TransformDone s t) :
    { t with pend := s.pend } = s.withData t.data := by
  rw [TransformDone] at h
  rw [h]
  rfl

/-- Settles O53: the inverse command reads `NAIVE_FWD` of the input and writes `NAIVE_INV` of that. -/
theorem inverseTransformsUndoForward : Obligations.InverseTransformsUndoForward := by
  intro s L hready hwritten hprime horder c hc hroots
  obtain ⟨hforward, hinverse, hroots'⟩ : c.1 ∈ [Instr.nttFwdIter, .nttFwdRec] ∧ c.2 ∈ [Instr.nttInvIter, .nttInvRec] ∧
      (isRecursive c.2 → isRecursive c.1) := by
    rcases List.mem_pair.1 hc with rfl | rfl <;> decide
  obtain ⟨t, ht, hdone, hout⟩ := exec_forward hready hprime horder hwritten hforward hroots
  have hlen : (naiveFwd (s.sequence (2 ^ L)) s.mod.toNat s.root.toNat).length = 2 ^ L := by simp
  have hseq := hout.sequence_eq fun v hv => (naiveFwd_lt hprime.pos _ _ v hv).trans s.mod.isLt
  have := Fact.mk hprime
  have hw : IsPrimitiveRoot (s.root.toNat : ZMod s.mod.toNat) (2 ^ L) := horder ▸ IsPrimitiveRoot.orderOf _
  have hback := naiveInv_naiveFwd hw (s.length_sequence (2 ^ L)) hready.1.1
  rw [hlen] at hseq
  have hwritten' : (s.withData t.data).InputWritten := by
    intro k hk
    have hk' : k < 2 ^ L := hready.2.1 ▸ hk
    simp [State.withData, hout k, hk']
  obtain ⟨u, hu, -, hout'⟩ := exec_inverse (s := s.withData t.data) hready hprime horder hwritten' hinverse
    (fun hi => hroots (hroots' hi)) (by rw [← hback]; exact congrArg (naiveInv · _ _) hseq)
  refine ⟨t, u, ht, ?_, HoldsOutput.trans hout hout' (by simp)⟩
  rw [withPend_of_transformDone hdone]
  exact hu

end Sys2Proof.Machine

/-! PROOF. The recursive core's level: its two halves by index, and why its lowest level root reaches no output
(spec/41_ntt_recursive.md R140, R145, R146). -/

namespace Sys2Proof.Machine

/-! ## One level of the recursive core -/

section
variable {x : List Nat} {m : Nat} (hx : x.length = 2 ^ (m + 1))
include hx

/-- R140: the even half, by index. -/
theorem evens_eq_map : evens x = (List.range (2 ^ m)).map fun k => x.getD (2 * k) 0 := by
  refine List.ext_getElem (by simp [length_evens_pow hx]) fun k h1 h2 => ?_
  rw [← List.getD_eq_getElem _ 0 h1, getD_evens, List.getElem_map, List.getElem_range]

/-- R140: the odd half, by index. -/
theorem odds_eq_map : odds x = (List.range (2 ^ m)).map fun k => x.getD (2 * k + 1) 0 := by
  refine List.ext_getElem (by simp [length_odds_pow hx]) fun k h1 h2 => ?_
  rw [← List.getD_eq_getElem _ 0 h1, getD_odds, List.getElem_map, List.getElem_range]

end

/-- Settles O46: the halves by index are the model's, and a level is one combine step. -/
theorem recursiveCoreCombinesEvenAndOddHalves : Obligations.RecursiveCoreCombinesEvenAndOddHalves := by
  intro N m root x hN
  refine ⟨fun _ => rfl, fun hx => ⟨length_recCore N root (m + 1) x hx, recCore_lt hN root m x, fun k hk => ?_⟩⟩
  rw [← evens_eq_map hx, ← odds_eq_map hx, ← powMod_eq]
  exact ⟨getElem?_combine_low _ _ hk, getElem?_combine_high _ _ hk⟩

/-! ## The level-one root -/

/-- R146: level 1 has one twiddle, `r^0`, so its root does not reach the core's result. -/
theorem recCore_congr_above_level_one {root root' : Nat → Nat} (h : ∀ m, m ≠ 1 → root' m = root m) (N M : Nat)
    (x : List Nat) : recCore N root' M x = recCore N root M x := by
  refine recCore_congr N M (fun m _ _ k hk => ?_) x
  by_cases hm : m = 1
  · obtain rfl : k = 0 := by simpa [hm] using hk
    simp only [tw, powMod_eq, pow_zero]
  · rw [h m hm]

/-- Another value of `RTAB[1]`. -/
def State.withLevelOneRoot (s : State) (v : Word) : State := { s with rtab := s.rtab.set 1 v }

section
variable (s : State) (v : Word)

theorem rtabEntry_withLevelOneRoot_other {m : Nat} (h : m ≠ 1) :
    (s.withLevelOneRoot v).rtabEntry m = s.rtabEntry m := by
  simp [State.rtabEntry, State.withLevelOneRoot, h.symm]

/-- `RTAB[1]` holds the new value, or there is no `RTAB[1]` to write. -/
theorem rtabEntry_withLevelOneRoot_one :
    (s.withLevelOneRoot v).rtabEntry 1 = v.toNat ∨ (s.withLevelOneRoot v).rtabEntry 1 = s.rtabEntry 1 := by
  by_cases h : 1 < s.rtab.length
  · exact .inl (by simp [State.rtabEntry, State.withLevelOneRoot, h])
  · exact .inr (by rw [State.withLevelOneRoot, List.set_eq_of_length_le (Nat.le_of_not_lt h)])

theorem rootFwd_withLevelOneRoot {m : Nat} (h : m ≠ 1) : (s.withLevelOneRoot v).rootFwd m = s.rootFwd m := by
  simp only [State.rootFwd, rtabEntry_withLevelOneRoot_other s v h]
  rfl

theorem rootInv_withLevelOneRoot {m : Nat} (h : m ≠ 1) : (s.withLevelOneRoot v).rootInv m = s.rootInv m := by
  simp only [State.rootInv, rtabEntry_withLevelOneRoot_other s v h]
  rfl

/-- R146: the output function of a recursive transform does not depend on `RTAB[1]`. -/
theorem outputOf_withLevelOneRoot {i : Instr} (hi : isRecursive i) (x : List Nat) :
    outputOf i (s.withLevelOneRoot v) x = outputOf i s x := by
  rcases List.mem_pair.1 hi with rfl | rfl
  · simp only [outputOf, fwdRec, recCore_congr_above_level_one fun m => rootFwd_withLevelOneRoot s v]
    rfl
  · simp only [outputOf, invRec, recCore_congr_above_level_one fun m => rootInv_withLevelOneRoot s v]
    rfl

variable {s v}

/-- R145: a value of `RTAB[1]` in range passes the check of the level roots as the one in range before it did. -/
theorem rtabOk_withLevelOneRoot (hone : s.rtabEntry 1 < s.mod.toNat) (hv : v.toNat < s.mod.toNat) :
    (s.withLevelOneRoot v).rtabOk = s.rtabOk := by
  have hentry (m : Nat) : (s.withLevelOneRoot v).rtabEntry m < s.mod.toNat ↔ s.rtabEntry m < s.mod.toNat := by
    by_cases hm : m = 1
    · subst hm
      refine iff_of_true ?_ hone
      rcases rtabEntry_withLevelOneRoot_one s v with h | h
      · rwa [h]
      · rwa [h]
    · rw [rtabEntry_withLevelOneRoot_other s v hm]
  rw [Bool.eq_iff_iff, rtabOk_iff, rtabOk_iff]
  exact imp_congr Iff.rfl <| forall_congr' fun m => imp_congr Iff.rfl <| imp_congr Iff.rfl (hentry m)

end

theorem isTransform_of_isRecursive {i : Instr} (hi : isRecursive i) : isTransform i :=
  List.mem_cons_of_mem _ (List.mem_cons_of_mem _ hi)

/-- A recursive transform completes alike with another value of `RTAB[1]`, both values in range. -/
theorem exec_withLevelOneRoot {i : Instr} (hi : isRecursive i) {s t : State} {v : Word}
    (hone : s.rtabEntry 1 < s.mod.toNat) (hv : v.toNat < s.mod.toNat) (h : exec i s = .next t) :
    exec i (s.withLevelOneRoot v) = .next (t.withLevelOneRoot v) := by
  have htransform := isTransform_of_isRecursive hi
  have hchecks : checksOf i (s.withLevelOneRoot v) = checksOf i s := by
    rw [checksOf_recursive hi, checksOf_recursive hi, rtabOk_withLevelOneRoot hone hv]
    rfl
  rw [exec_eq] at h ⊢
  refine complete_congr (State.withLevelOneRoot · v) hchecks (fun _ => rfl) ?_ h
  rw [effectOf_transform htransform, effectOf_transform htransform]
  exact transformEffect_congr (State.withLevelOneRoot · v) rfl rfl (outputOf_withLevelOneRoot s v hi _) fun _ => rfl

/-- No command writes `RTAB` (R34). -/
theorem exec_rtab {i : Instr} {s t : State} (h : exec i s = .next t) : t.rtab = s.rtab := by
  obtain ⟨_, _, _, _, _, _, _, _, rfl⟩ := exec_frame h
  rfl

/-- Settles O55: the checks hold or fail alike, no output depends on `RTAB[1]`, and the completion keeps `RTAB`. -/
theorem levelOneRootNeverMatters : Obligations.LevelOneRootNeverMatters := by
  intro s t v hone hv i hi h
  have hkept : t.withLevelOneRoot v = { t with rtab := s.rtab.set 1 v } := by rw [State.withLevelOneRoot, exec_rtab h]
  exact (exec_withLevelOneRoot hi hone hv h).trans (congrArg _ hkept)

end Sys2Proof.Machine

/-! PROOF. With `RT_HOST = 0` the iterative and the recursive transforms are the same command
(spec/41_ntt_recursive.md R146, spec/42_ntt_iterative.md R167). -/

namespace Sys2Proof.Machine

/-! ## Two transforms that complete alike -/

/-- A check that holds, put after the others, does not change which one fails first. -/
theorem firstFailure_concat_true (l : List (Bool × ErrCode)) (e : ErrCode) :
    firstFailure (l ++ [(true, e)]) = firstFailure l := by
  cases h : firstFailure l with
  | none => rw [firstFailure_append_of_hold (firstFailure_eq_none.1 h)]; rfl
  | some f => exact firstFailure_append_of_fail h _

/-- Two transforms with the same first failing check and, when none fails, the same output answer the same outcome. -/
theorem exec_transform_eq {i j : Instr} (hi : isTransform i) (hj : isTransform j) {s : State}
    (hchecks : firstFailure (checksOf j s) = firstFailure (checksOf i s))
    (hout : firstFailure (checksOf i s) = none → outputOf i s s.inputSeq = outputOf j s s.inputSeq) :
    exec i s = exec j s := by
  cases hc : firstFailure (checksOf i s) with
  | some e => rw [exec_failure hc, exec_failure (hchecks.trans hc)]
  | none =>
    rw [exec_success hc, exec_success (hchecks.trans hc), effectOf_transform hi, effectOf_transform hj]
    exact congrArg _ (transformEffect_congr id rfl rfl (hout hc) fun _ => rfl)

/-- R116: when a transform's checks hold, its input has length `2^L`. -/
theorem length_inputSeq_eq_two_pow {i : Instr} (hi : isTransform i) {s : State}
    (hc : firstFailure (checksOf i s) = none) : s.inputSeq.length = 2 ^ s.logLen := by
  obtain ⟨-, hlen, -⟩ := transform_operands hi hc
  obtain ⟨⟨L, hL⟩, -⟩ := lenOk_iff.1 hlen
  rw [s.length_inputSeq, logLen_eq hL, hL]

/-! ## The level roots the engine computes -/

/-- The root itself on the top level and its powers below it are the level roots of the iterative twiddles (R161). -/
theorem rootsOfPowers_of_top {N r L : Nat} {root : Nat → Nat} (htop : root L = r)
    (hbelow : ∀ m ≠ L, root m = powerRoots N r L m) : RootsOfPowers N r L root := by
  intro m h1 hm k
  by_cases h : m = L
  · rw [h, htop, Nat.sub_self, pow_zero, mul_one]
  · rw [hbelow m h]
    exact rootsOfPowers_powerRoots N r L m h1 hm k

section
variable {s : State} (hrt : s.latchedRtHost = false)
include hrt

/-- R141 with `RT_HOST = 0`. -/
theorem rootsOfPowers_rootFwd : RootsOfPowers s.mod.toNat s.root.toNat s.logLen s.rootFwd :=
  rootsOfPowers_of_top (by simp [State.rootFwd]) fun m hm => by simp [State.rootFwd, hm, hrt, powerRoots]

/-- R142 with `RT_HOST = 0`. -/
theorem rootsOfPowers_rootInv :
    RootsOfPowers s.mod.toNat (rinv s.root.toNat s.len.toNat s.mod.toNat) s.logLen s.rootInv :=
  rootsOfPowers_of_top (by simp [State.rootInv]) fun m hm => by simp [State.rootInv, hm, hrt, powerRoots]

/-- R145: the check of the level roots asks nothing with `RT_HOST = 0`, so the recursive transforms fail as the
iterative ones do. -/
theorem firstFailure_recursive_eq_iterative {i j : Instr} (hi : isTransform i) (hiter : ¬ isRecursive i)
    (hj : isRecursive j) : firstFailure (checksOf j s) = firstFailure (checksOf i s) := by
  have hrtab : s.rtabOk = true := rtabOk_iff.2 fun h => absurd (hrt.symm.trans h) Bool.false_ne_true
  rw [checksOf_recursive hj, checksOf_iterative hi hiter, hrtab, firstFailure_concat_true]

/-- An iterative and a recursive transform that agree on sequences of length `LEN` are the same command. -/
theorem exec_iterative_eq_recursive {i j : Instr} (hi : isTransform i) (hiter : ¬ isRecursive i) (hj : isRecursive j)
    (hout : s.inputSeq.length = 2 ^ s.logLen → outputOf i s s.inputSeq = outputOf j s s.inputSeq) :
    exec i s = exec j s :=
  exec_transform_eq hi (isTransform_of_isRecursive hj)
    (firstFailure_recursive_eq_iterative hrt hi hiter hj) fun hc => hout (length_inputSeq_eq_two_pow hi hc)

end

/-- Settles O51: with `RT_HOST = 0` the level roots are the powers that the iterative twiddles are. -/
theorem iterativeEqualsRecursive : Obligations.IterativeEqualsRecursive := by
  intro s p hp hlatched
  have hrt : s.latchedRtHost = false := (latchedRtHost_of_pend hp).trans hlatched
  refine ⟨exec_iterative_eq_recursive hrt (by decide) (by decide) (by decide) fun hx => ?_,
    exec_iterative_eq_recursive hrt (by decide) (by decide) (by decide) fun hx => ?_⟩
  · exact fwdIter_eq_fwdRec (rootsOfPowers_rootFwd hrt) hx
  · refine invIter_eq_invRec ?_ hx
    rw [← hx, s.length_inputSeq]
    exact rootsOfPowers_rootInv hrt

end Sys2Proof.Machine

/-! PROOF. The iterative core is the network of its stages (spec/42_ntt_iterative.md R160, R161). -/

namespace Sys2Proof.Machine

/-- R160: the spans `2^t, 2^(t+1), ...` of `u` stages are all below the length, so the loop runs each of them. -/
theorem iterLoop_eq_foldl_iterStage (N r : Nat) {L : Nat} (u : Nat) {t : Nat} (h : t + u ≤ L) (a : List Nat) :
    iterLoop N r (2 ^ L) u (2 ^ t) a =
      (List.range' t u).foldl (fun a k => iterStage N r (2 ^ L) (2 ^ k) a) a := by
  induction u generalizing t a with
  | zero => rfl
  | succ u ih =>
    have hspan : 2 ^ t < 2 ^ L := Nat.pow_lt_pow_right (by decide) (by omega)
    rw [iterLoop, if_pos hspan, ← pow_succ, ih (by omega), List.range'_succ, List.foldl_cons]

theorem iterCore_eq_foldl_iterStage (N r : Nat) {L : Nat} {x : List Nat} (hx : x.length = 2 ^ L) :
    iterCore x N r = (List.range L).foldl (fun a k => iterStage N r (2 ^ L) (2 ^ k) a) x := by
  rw [iterCore, hx, Nat.log2_two_pow, List.range_eq_range', ← iterLoop_eq_foldl_iterStage N r L (by omega), pow_zero]

/-- R161: the division in the twiddle index is exact when the block length `2 · ns` divides the sequence's. -/
theorem iterTwiddled_eq {n ns : Nat} (hdvd : ns * 2 ∣ n) (N r : Nat) (a : List Nat) (j : Nat) :
    iterTwiddled N r n ns a j = r ^ (j % ns * (n / (ns * 2))) % N * a.getD (j + n / 2) 0 % N := by
  rw [iterTwiddled, mulm, tw, powMod_eq, Nat.mul_div_assoc _ hdvd]

/-- Settles O45: the loop is the fold of its stages, and within a stage every index belongs to one butterfly. -/
theorem iterativeStagesAreTheButterflyNetwork : Obligations.IterativeStagesAreTheButterflyNetwork := by
  intro N r L hN
  refine ⟨fun x hx => ⟨iterCore_eq_foldl_iterStage N r hx, fun hL => iterCore_lt hN r x ?_⟩, ?_⟩
  · rw [hx]
    exact Nat.pow_le_pow_right two_pos hL
  · intro a k j _ hk hj ns v1 d b
    obtain ⟨u, rfl⟩ := Nat.exists_eq_add_of_lt hk
    have hn : 2 ^ (k + u + 1) = ns * (2 * 2 ^ u) := by ring
    have hdvd : ns * 2 ∣ 2 ^ (k + u + 1) := ⟨2 ^ u, by rw [hn, mul_assoc]⟩
    have hstage := getElem?_iterStage N r _ (Nat.two_pow_pos k) a hn hj
    rw [iterTwiddled_eq hdvd] at hstage
    exact ⟨length_iterStage .., hstage⟩

end Sys2Proof.Machine

/-! PROOF. The Montgomery multiplier: what `MINV` and `REDC` give, and what the four commands leave
(spec/43_montgomery.md R180 to R186). -/

namespace Sys2Proof.Machine

/-! ## The inverse of the modulus -/

/-- R181: a product of two words is 1 modulo `2^64` exactly when it is the word 1. -/
theorem toNat_mul_mod_eq_one_iff {m x : Word} : m.toNat * x.toNat % 2 ^ 64 = 1 ↔ m * x = 1 := by
  rw [BitVec.toNat_eq, BitVec.toNat_mul]
  rfl

/-- Settles O34: `MINV` inverts an odd modulus, and an inverse modulo `2^64` is unique. -/
theorem montSetupBuildsTheInverse : Obligations.MontSetupBuildsTheInverse := by
  intro s hmod
  refine ⟨minv s.mod, exec_success (i := .montSetup) ?_, fun x => ?_⟩
  · simp [checksOf, modOk_eq_true hmod]
  · have hinv := mul_minv hmod.1
    rw [toNat_mul_mod_eq_one_iff]
    exact ⟨fun hx => inv_unique hx hinv, fun hx => hx ▸ hinv⟩

/-! ## The reduction -/

/-- What R180 takes from the high half: `(q · m) div 2^64`. -/
def redcSubtrahend (a b m minv : Nat) : Nat :=
  a * b % montgomeryRadix * minv % montgomeryRadix * m / montgomeryRadix

/-- The signed difference of R180, before the modulus is added to a negative one. -/
def redcDifference (a b m minv : Nat) : Int := (a * b / montgomeryRadix : Nat) - (redcSubtrahend a b m minv : Nat)

theorem redc_eq (a b m minv : Nat) : redc a b m minv =
    (if redcDifference a b m minv < 0 then redcDifference a b m minv + m else redcDifference a b m minv).toNat := rfl

theorem redcDifference_le (a b m minv : Nat) : redcDifference a b m minv ≤ (a * b / montgomeryRadix : Nat) :=
  Int.sub_le_self _ (Int.natCast_nonneg _)

section
variable {m : Nat} (hm : 0 < m) (a b minv : Nat)
include hm

/-- R186: `(q · m) div R` is below `m`, because `q` is below `R`. -/
theorem redcSubtrahend_lt : redcSubtrahend a b m minv < m :=
  Nat.div_lt_of_lt_mul (Nat.mul_lt_mul_of_pos_right (Nat.mod_lt _ (Nat.two_pow_pos 64)) hm)

/-- R186 item 2, the lower bound. -/
theorem neg_lt_redcDifference : -(m : Int) < redcDifference a b m minv := by
  have hsub := redcSubtrahend_lt hm a b minv
  rw [redcDifference]
  generalize a * b / montgomeryRadix = high
  omega

/-- R180, in the integers. -/
theorem redc_cast : (redc a b m minv : Int) =
    if redcDifference a b m minv < 0 then redcDifference a b m minv + m else redcDifference a b m minv := by
  have hlow := neg_lt_redcDifference hm a b minv
  rw [redc_eq, Int.toNat_of_nonneg]
  split <;> omega

/-- R186: the reduction is below every bound of the modulus and of the high half of the product. -/
theorem redc_lt_of_high_lt {B : Nat} (hmB : m ≤ B) (hhigh : a * b / montgomeryRadix < B) : redc a b m minv < B := by
  have hle := redcDifference_le a b m minv
  have hcast := redc_cast hm a b minv
  split at hcast <;> omega

/-- R180: the reduction differs from the signed difference by a multiple of the modulus. -/
theorem redc_modEq_redcDifference : (redc a b m minv : Int) ≡ redcDifference a b m minv [ZMOD m] := by
  rw [redc_cast hm]
  split
  · exact Int.add_modEq_right
  · exact Int.ModEq.refl _

/-- R186 item 1, with the radix on the left in place of its inverse on the right. -/
theorem redc_mul_radix_modEq {a b minv : Nat} (hinv : m * minv % montgomeryRadix = 1) :
    redc a b m minv * montgomeryRadix ≡ a * b [MOD m] := by
  rw [← Int.natCast_modEq_iff]
  push_cast
  calc (redc a b m minv * montgomeryRadix : Int)
      ≡ redcDifference a b m minv * montgomeryRadix [ZMOD m] := (redc_modEq_redcDifference hm a b minv).mul_right _
    _ = a * b - (a * b % montgomeryRadix * minv % montgomeryRadix : Nat) * m := (redc_difference hinv).symm
    _ ≡ a * b [ZMOD m] := by
      rw [Int.modEq_iff_dvd, sub_sub_cancel]
      exact dvd_mul_left _ _

end

/-- The high half of a product is below a bound of the one operand, the other being a word. -/
theorem high_lt_of_lt {a b B : Nat} (ha : a < B) (hb : b < montgomeryRadix) : a * b / montgomeryRadix < B :=
  Nat.div_lt_of_lt_mul (Nat.mul_comm a b ▸ Nat.mul_lt_mul'' hb ha)

/-- R186 item 2: the reduction fits a word. -/
theorem redc_lt_radix {a b m : Nat} (hm : 0 < m) (hmR : m < montgomeryRadix) (ha : a < montgomeryRadix)
    (hb : b < montgomeryRadix) (minv : Nat) : redc a b m minv < montgomeryRadix :=
  redc_lt_of_high_lt hm a b minv hmR.le (high_lt_of_lt ha hb)

/-- R186 item 3: the reduction is reduced when either operand is. -/
theorem redc_lt_modulus {a b m : Nat} (hm : 0 < m) (ha : a < montgomeryRadix) (hb : b < montgomeryRadix) (minv : Nat)
    (h : a < m ∨ b < m) : redc a b m minv < m := by
  refine redc_lt_of_high_lt hm a b minv le_rfl ?_
  rcases h with ham | hbm
  · exact high_lt_of_lt ham hb
  · exact Nat.mul_comm a b ▸ high_lt_of_lt hbm ha

/-- R186 item 5: both reductions lose one factor `R`, and `R` is prime to the odd modulus. -/
theorem redc_redc_toMontgomery {m minv : Nat} (hodd : m % 2 = 1) (hone : 1 < m) (hmR : m < montgomeryRadix)
    (hinv : m * minv % montgomeryRadix = 1) (a b : Nat) :
    redc (redc (toMontgomery a m) (toMontgomery b m) m minv) 1 m minv = a * b % m := by
  have hm : 0 < m := Nat.zero_lt_of_lt hone
  have hto (x : Nat) : toMontgomery x m ≡ montgomeryRadix * x [MOD m] := Nat.mod_modEq _ _
  have htolt (x : Nat) : toMontgomery x m < montgomeryRadix := (Nat.mod_lt _ hm).trans hmR
  have hprod := redc_lt_radix hm hmR (htolt a) (htolt b) minv
  have hcop : Nat.gcd m (montgomeryRadix * montgomeryRadix) = 1 := by
    have htwo : Nat.Coprime m montgomeryRadix := (Nat.coprime_two_right.2 (Nat.odd_iff.2 hodd)).pow_right 64
    exact htwo.mul_right htwo
  generalize hp : redc (toMontgomery a m) (toMontgomery b m) m minv = p at hprod ⊢
  have hlt : redc p 1 m minv < m := redc_lt_modulus hm hprod (hone.trans hmR) minv (.inr hone)
  refine (Nat.mod_eq_of_modEq (Nat.ModEq.symm ?_) hlt).symm
  refine Nat.ModEq.cancel_right_of_coprime hcop ?_
  calc redc p 1 m minv * (montgomeryRadix * montgomeryRadix)
      = redc p 1 m minv * montgomeryRadix * montgomeryRadix := (mul_assoc ..).symm
    _ ≡ p * 1 * montgomeryRadix [MOD m] := (redc_mul_radix_modEq hm hinv).mul_right _
    _ = p * montgomeryRadix := by rw [mul_one]
    _ ≡ toMontgomery a m * toMontgomery b m [MOD m] := hp ▸ redc_mul_radix_modEq hm hinv
    _ ≡ montgomeryRadix * a * (montgomeryRadix * b) [MOD m] := (hto a).mul (hto b)
    _ = a * b * (montgomeryRadix * montgomeryRadix) := by ring

/-! ## The commands that use the context -/

theorem checksOf_context {i : Instr} (hi : i ∈ [Instr.montTo, .montMul, .montFrom]) (s : State) :
    checksOf i s = [(s.mctxValid, .noContext)] := by
  simp only [List.mem_cons, List.not_mem_nil, or_false] at hi
  rcases hi with rfl | rfl | rfl
  · rfl
  · rfl
  · rfl

/-- Settles O32: the context's validity is the one check of each of the three. -/
theorem montgomeryWithoutContextFails : Obligations.MontgomeryWithoutContextFails := by
  intro s hv i hi
  refine exec_withError (e := .noContext) ?_
  rw [checksOf_context hi, hv]
  rfl

/-- With a context, a command whose one write is a value that fits `RESULT` completes with that value there. -/
theorem exec_context_setResult {i : Instr} (hi : i ∈ [Instr.montTo, .montMul, .montFrom]) {s : State}
    (hv : s.mctxValid = true) {n : Nat} (heffect : effectOf i s = s.setResult n) (hn : n < 2 ^ 64) :
    ∃ r : Word, exec i s = .next { s with result := r, done := true, pend := none } ∧ r.toNat = n := by
  have hc : firstFailure (checksOf i s) = none := by
    rw [checksOf_context hi, hv]
    rfl
  refine ⟨u64 n, ?_, by rw [BitVec.toNat_ofNat, Nat.mod_eq_of_lt hn]⟩
  rw [exec_success hc, heffect]
  rfl

section
variable {s : State} (hv : s.mctxValid = true) (hm : 0 < s.mctxMod.toNat)
include hv hm

/-- R183: the residue is below the modulus, so it fits `RESULT`. -/
theorem exec_montTo : ∃ r : Word, exec .montTo s = .next { s with result := r, done := true, pend := none } ∧
    r.toNat = toMontgomery s.opa.toNat s.mctxMod.toNat :=
  exec_context_setResult (by decide) hv (effectOf_montTo s) ((Nat.mod_lt _ hm).trans s.mctxMod.isLt)

/-- R184: R186 item 2 has the value fit `RESULT`. -/
theorem exec_montMul : ∃ r : Word, exec .montMul s = .next { s with result := r, done := true, pend := none } ∧
    r.toNat = redc s.opa.toNat s.opb.toNat s.mctxMod.toNat s.mctxInv.toNat :=
  exec_context_setResult (by decide) hv (effectOf_montMul s)
    (redc_lt_radix hm s.mctxMod.isLt s.opa.isLt s.opb.isLt _)

/-- R185: R186 item 2 has the value fit `RESULT`. -/
theorem exec_montFrom : ∃ r : Word, exec .montFrom s = .next { s with result := r, done := true, pend := none } ∧
    r.toNat = redc s.opa.toNat 1 s.mctxMod.toNat s.mctxInv.toNat :=
  exec_context_setResult (by decide) hv (effectOf_montFrom s)
    (redc_lt_radix hm s.mctxMod.isLt s.opa.isLt (by decide) _)

end

/-- Settles O35: the check holds, and the residue fits `RESULT`. -/
theorem montToMultipliesByTheRadix : Obligations.MontToMultipliesByTheRadix :=
  fun _ hv hthree => exec_montTo hv (by omega)

/-- Settles O36: the value `REDC` gives, read in the integers. -/
theorem montMulIsTheSignedReduction : Obligations.MontMulIsTheSignedReduction := by
  intro s hwf hv
  obtain ⟨-, hthree, -⟩ := hwf.contextInverse hv
  have hm : 0 < s.mctxMod.toNat := by omega
  obtain ⟨r, hexec, hr⟩ := exec_montMul hv hm
  exact ⟨r, hexec, hr ▸ redc_cast hm _ _ _⟩

/-- Settles O37: items 1 and 3 of R186 for the value of `MONT_MUL`. -/
theorem montMulIsTheMontgomeryProduct : Obligations.MontMulIsTheMontgomeryProduct := by
  intro s hwf hv
  obtain ⟨-, hthree, hinv⟩ := hwf.contextInverse hv
  have hm : 0 < s.mctxMod.toNat := by omega
  obtain ⟨r, hexec, hr⟩ := exec_montMul hv hm
  exact ⟨_, hexec, hr ▸ redc_mul_radix_modEq hm hinv,
    fun h => hr ▸ redc_lt_modulus hm s.opa.isLt s.opb.isLt s.mctxInv.toNat h⟩

/-- Settles O38: the second operand, 1, is below the modulus, so items 1 and 3 of R186 give the reduced value. -/
theorem montFromDividesByTheRadix : Obligations.MontFromDividesByTheRadix := by
  intro s hwf hv
  obtain ⟨-, hthree, hinv⟩ := hwf.contextInverse hv
  have hm : 0 < s.mctxMod.toNat := by omega
  obtain ⟨r, hexec, hr⟩ := exec_montFrom hv hm
  refine ⟨r, hexec, ?_, ?_⟩
  · rw [hr]
    exact redc_lt_modulus hm s.opa.isLt (by decide) _ (.inr (by omega))
  · have hmod := redc_mul_radix_modEq hm hinv (a := s.opa.toNat) (b := 1)
    rwa [mul_one, ← hr] at hmod

/-- Settles O39: the four commands keep the context, so their values compose to item 5 of R186. -/
theorem montgomeryRoundTripIsModularProduct : Obligations.MontgomeryRoundTripIsModularProduct := by
  intro s a b hwf hv
  obtain ⟨hodd, hthree, hinv⟩ := hwf.contextInverse hv
  have hm : 0 < s.mctxMod.toNat := by omega
  obtain ⟨r1, hexec1, hr1⟩ := exec_montTo (s := { s with opa := a }) hv hm
  obtain ⟨r2, hexec2, hr2⟩ :=
    exec_montTo (s := { s with opa := b, result := r1, done := true, pend := none }) hv hm
  obtain ⟨r3, hexec3, hr3⟩ :=
    exec_montMul (s := { s with opa := r1, opb := r2, result := r2, done := true, pend := none }) hv hm
  obtain ⟨r4, hexec4, hr4⟩ :=
    exec_montFrom (s := { s with opa := r3, opb := r2, result := r3, done := true, pend := none }) hv hm
  refine ⟨_, _, _, _, hexec1, hexec2, hexec3, hexec4, ?_⟩
  calc r4.toNat = redc (redc (toMontgomery a.toNat s.mctxMod.toNat) (toMontgomery b.toNat s.mctxMod.toNat)
        s.mctxMod.toNat s.mctxInv.toNat) 1 s.mctxMod.toNat s.mctxInv.toNat := by rw [hr4, hr3, hr1, hr2]
    _ = a.toNat * b.toNat % s.mctxMod.toNat :=
      redc_redc_toMontgomery hodd (by omega) s.mctxMod.isLt hinv _ _

end Sys2Proof.Machine

/-! PROOF. What `ROOTCHK` decides: the multiplicative order of `ROOT`, from two of its powers
(spec/44_modexp.md R201). -/

namespace Sys2Proof.Machine

/-! ## The order of a root -/

/-- An order that divides `2 ^ (k + 1)` and not `2 ^ k` can only be `2 ^ (k + 1)`. -/
theorem orderOf_eq_two_pow_succ_iff {M : Type*} [Monoid M] {x : M} {k : Nat} :
    orderOf x = 2 ^ (k + 1) ↔ x ^ 2 ^ (k + 1) = 1 ∧ x ^ 2 ^ k ≠ 1 := by
  constructor
  · intro h
    refine ⟨h ▸ pow_orderOf_eq_one x, ?_⟩
    exact pow_ne_one_of_lt_orderOf (by positivity) (h ▸ Nat.pow_lt_pow_right (by decide) k.lt_succ_self)
  · rintro ⟨hone, hhalf⟩
    exact orderOf_eq_prime_pow hhalf hone

/-- The engine's test of a power against 1, in the integers modulo `N`. -/
theorem powMod_eq_one_iff {a e N : Nat} (hN : 1 < N) : powMod a e N = 1 ↔ (a : ZMod N) ^ e = 1 := by
  rw [powMod_eq, ← Nat.cast_pow, ← Nat.cast_one (R := ZMod N), ZMod.natCast_eq_natCast_iff', Nat.mod_eq_of_lt hN]

/-- R201: the test `ROOTCHK` makes is that of the order, for every modulus above 1; at length 1 there is only one power
to test. -/
theorem rootOrderOk_iff {w L N : Nat} (hN : 1 < N) :
    rootOrderOk w (2 ^ L) N = true ↔ orderOf (w : ZMod N) = 2 ^ L := by
  cases L with
  | zero => simp [rootOrderOk, powMod_eq_one_iff hN]
  | succ k =>
    have hhalf : 2 ^ (k + 1) / 2 = 2 ^ k := by rw [pow_succ, Nat.mul_div_cancel _ two_pos]
    rw [orderOf_eq_two_pow_succ_iff, ← powMod_eq_one_iff hN, Ne, ← powMod_eq_one_iff hN]
    simp [rootOrderOk, hhalf]

/-! ## The command -/

/-- The checks of `ROOTCHK` hold exactly with the unit present, an odd modulus of at least 3, a power of two in `LEN`,
which no `NMAX` bounds, and a root below the modulus (R201). -/
theorem firstFailure_rootchk {s : State} :
    firstFailure (checksOf .rootchk s) = none ↔
      s.params.hasModexp = true ∧ s.ModulusOk ∧ (∃ L, s.len.toNat = 2 ^ L) ∧ s.root.toNat < s.mod.toNat := by
  simp [firstFailure_eq_none, checksOf, rootchkChecks, modOk_iff, isPow2_iff, rootOk_iff, State.ModulusOk]

/-- Settles O42: the checks hold, and the two powers the command tests decide the order. -/
theorem rootchkDecidesTheOrder : Obligations.RootchkDecidesTheOrder := by
  intro s L hunit hmod hlen hroot
  have hN : 1 < s.mod.toNat := by
    have := hmod.2
    omega
  have hexec := exec_success (firstFailure_rootchk.2 ⟨hunit, hmod, ⟨L, hlen⟩, hroot⟩)
  rw [effectOf_rootchk, hlen] at hexec
  refine ⟨_, hexec, fun horder => ?_, fun horder => ?_⟩
  · rw [if_pos ((rootOrderOk_iff hN).2 horder)]
    rfl
  · rw [if_neg (mt (rootOrderOk_iff hN).1 horder)]
    rfl

end Sys2Proof.Machine

/-! PROOF. How a command completes and what it reports, whose move a step is, how a command word is accepted, and what
drives the interrupt output (spec/60_exceptions.md R240 to R249, R255, R273, R280). -/

namespace Sys2Proof.Machine

/-! ## Completion and its errors -/

/-- R241: a reported code is at least 1 and at most 7. -/
theorem ErrCode.toNat_code_range (e : ErrCode) : 1 ≤ e.code.toNat ∧ e.code.toNat ≤ 7 := by
  obtain ⟨hne, hle⟩ := e.code_range
  exact ⟨Nat.one_le_iff_ne_zero.2 fun h => hne (BitVec.eq_of_toNat_eq h), hle⟩

/-- R244: a command reports an error by name and writes nothing else, or leaves the reported error as it was. -/
theorem exec_failed_or_error_kept {i : Instr} {s t : State} (h : exec i s = .next t) :
    (∃ e, t = s.failed e) ∨ (t.err = s.err ∧ t.errcode = s.errcode) := by
  rcases exec_cases h with ⟨e, -, rfl⟩ | ⟨-, rfl⟩
  · exact .inl ⟨e, rfl⟩
  · obtain ⟨_, _, _, _, _, _, heffect⟩ := effectOf_shape i s
    exact .inr (by simp [heffect])

/-- The same of the engine's step, on any command word (R93 to R95). -/
theorem engineStep_failed_or_error_kept {s t : State} (h : engineStep s = .next t) :
    (∃ e, t = s.failed e) ∨ (t.err = s.err ∧ t.errcode = s.errcode) := by
  rcases engineStep_next h with ⟨-, rfl⟩ | ⟨_, _, -, -, he⟩ | ⟨_, r, -, -, rfl⟩
  · exact .inr ⟨rfl, rfl⟩
  · exact exec_failed_or_error_kept he
  · exact .inl ⟨rejectCode r, rfl⟩

/-- Settles O10: a command answers in every state, and its one new error is one that has a name. -/
theorem everyCommandCompletes : Obligations.EveryCommandCompletes := by
  intro i s
  obtain ⟨t, ht⟩ := exec_answers i s
  have hcompleted : t.done = true ∧ t.pend = none := by
    obtain ⟨_, _, _, _, _, _, _, _, rfl⟩ := exec_frame ht
    exact ⟨rfl, rfl⟩
  refine ⟨t, ht, hcompleted.1, hcompleted.2, ?_⟩
  rcases exec_failed_or_error_kept ht with ⟨e, rfl⟩ | hkept
  · exact .inr ⟨rfl, e.toNat_code_range⟩
  · exact .inl hkept

/-- Settles O29: with `ERR` newly 1 the error was not kept, so the command failed by name. -/
theorem failedCommandWritesOnlyStatus : Obligations.FailedCommandWritesOnlyStatus := by
  intro s t hbefore hafter h
  have hcases : (∃ e, t = s.failed e) ∨ (t.err = s.err ∧ t.errcode = s.errcode) := by
    rcases h with ⟨i, he⟩ | ⟨-, he⟩
    · exact exec_failed_or_error_kept he
    · exact engineStep_failed_or_error_kept he
  rcases hcases with ⟨e, rfl⟩ | ⟨hkept, -⟩
  · rfl
  · rw [hkept, hbefore] at hafter
    cases hafter

/-! ## Whose move a step is -/

/-- R93, R244: the engine's step runs the command that the word in flight selects. -/
theorem engineStep_decoded {s : State} {p : Pending} {i : Instr} (hp : s.pend = some p) (hi : decode p.cmd = .ok i) :
    engineStep s = exec i s := by
  rw [engineStep_busy hp, completeCommand, hi]

/-- Settles O7: by either reason the step is the engine's. -/
theorem stepRunsTheDecodedCommand : Obligations.StepRunsTheDecodedCommand := by
  intro s p i hp hi hturn
  have hengine : step s = engineStep s := hturn.elim step_of_no_event step_of_turn
  rw [hengine, engineStep_decoded hp hi]

/-- Settles O8: with a host event to come and a command in flight, `engineMoves` says whose move it is. -/
theorem everyStepIsOneAgentsMove : Obligations.EveryStepIsOneAgentsMove := by
  intro s
  refine ⟨step_of_no_event, engineStep_idle, fun ev rest hq => ⟨fun hidle => step_of_idle hidle hq, fun _ => ?_⟩⟩
  cases hmoves : engineMoves s with
  | true => exact .inl (step_of_turn hmoves)
  | false => exact .inr (step_of_host hmoves hq)

/-! ## Accepting a command word -/

/-- R243: an idle engine accepts any command word. -/
theorem hostAccess_writeCmd_idle {s : State} (hidle : s.pend = none) (v : Word) :
    hostAccess (.write 0x0018 8 v) s = .next (s.accept v) :=
  hostAccess_write (route_reg .cmd rfl rfl (by simp [Target.readOnly]) fun hb => absurd hidle (State.busy_iff.1 hb))

/-- R68: a write of `CMD` is none of the accesses accepted while a command is in flight. -/
theorem not_allowedWhileBusy_writeCmd (v : Word) : ¬ Access.AllowedWhileBusy (.write 0x0018 8 v) := by
  simp [Access.allowedWhileBusy_iff, Access.off]

/-- Settles O16: the write is accepted on an idle engine, and in flight it is one that R68 does not list. -/
theorem cmdWriteLatchesTheCommand : Obligations.CmdWriteLatchesTheCommand := by
  intro s v
  exact ⟨fun hidle => hostAccess_writeCmd_idle hidle v,
    fun hbusy => (busyEngineAcceptsOnlyControlAndStatus s _ hbusy).2 (not_allowedWhileBusy_writeCmd v)⟩

/-- R243: the one next state of a `CMD` write is that of an acceptance. -/
theorem hostAccess_writeCmd_next {s t : State} {v : Word} (h : hostAccess (.write 0x0018 8 v) s = .next t) :
    t = s.accept v := by
  by_cases hidle : s.pend = none
  · rw [hostAccess_writeCmd_idle hidle] at h
    cases h
    rfl
  · obtain ⟨c, hc⟩ := (cmdWriteLatchesTheCommand s v).2 hidle
    rw [hc] at h
    cases h

/-! ## The interrupt output -/

/-- R248: the output is 0 exactly when it is disabled or `DONE` is clear. -/
theorem irq_eq_false_iff {s : State} : s.irq = false ↔ s.irqEn = false ∨ s.done = false :=
  Bool.and_eq_false_iff

theorem engineStep_irqEn {s t : State} (h : engineStep s = .next t) : t.irqEn = s.irqEn := by
  rcases engineStep_next h with ⟨-, rfl⟩ | ⟨_, _, -, -, he⟩ | ⟨_, _, -, -, rfl⟩
  · rfl
  · obtain ⟨_, _, _, _, _, _, _, _, rfl⟩ := exec_frame he
    rfl
  · rfl

/-- R244, R248: the completion of a command raises the output when it is enabled. -/
theorem irq_engineStep {s : State} (hbusy : s.pend ≠ none) : ∃ t, engineStep s = .next t ∧ t.irq = s.irqEn := by
  obtain ⟨t, ht, -, hdone, -⟩ := engineStep_completes hbusy
  refine ⟨t, ht, ?_⟩
  rw [State.irq, hdone, Bool.and_true, engineStep_irqEn ht]

/-- R24: with bit 0 set a `CTRL` write is a soft reset. -/
theorem State.writeCtrl_of_set (s : State) {v : Word} (h : v.getLsbD 0 = true) : s.writeCtrl v = s.softReset :=
  if_pos h

/-- R23, R271: a `CTRL` write that does not set `IRQ_EN` clears it. -/
theorem State.writeCtrl_irqEn (s : State) (v : Word) :
    (s.writeCtrl v).irqEn = (!v.getLsbD 0 && v.getLsbD 1) := by
  cases hv : v.getLsbD 0
  · simp [s.writeCtrl_of_clear hv]
  · simp [s.writeCtrl_of_set hv]

/-- Settles O26: a completion sets `DONE`, and each of the other events clears `DONE` or `IRQ_EN`. -/
theorem interruptFollowsEnableAndDone : Obligations.InterruptFollowsEnableAndDone := by
  intro s
  refine ⟨rfl, irq_engineStep, fun v t h => ?cmd, fun v t hv h => ?status, fun v t hv h => ?ctrl, rfl⟩
  case cmd =>
    rw [hostAccess_writeCmd_next h]
    exact irq_eq_false_iff.2 (.inr rfl)
  case status =>
    rw [hostAccess_writeStatus] at h
    cases h
    exact irq_eq_false_iff.2 (.inr (by simp [hv]))
  case ctrl =>
    rw [hostAccess_writeCtrl] at h
    cases h
    refine irq_eq_false_iff.2 (.inl ?_)
    rw [State.writeCtrl_irqEn]
    rcases hv with hv | hv
    · rw [hv, Bool.and_false]
    · rw [hv, Bool.not_true, Bool.false_and]

end Sys2Proof.Machine

/-! PROOF. What a soft reset leaves, and that a polled command completes (spec/10_state.md R40, R41,
spec/70_reset_and_hazards.md R271, R272, R280). -/

namespace Sys2Proof.Machine

/-! ## A soft reset -/

theorem ctrlWord_softReset (s : State) : s.softReset.ctrlWord = 0 :=
  ctrlWord_powerOn s

theorem statusWord_softReset (s : State) : s.softReset.statusWord = 0 :=
  statusWord_powerOn s

/-- R272: whether a word in flight is a transform is read off its bits 7:0 alone. -/
theorem abortsTransform_iff {cmd : Word} : abortsTransform cmd = true ↔ cmd.toNat % 256 ∈ [1, 2, 3, 4] := by
  simp [abortsTransform, BitVec.toNat_eq, toNat_commandOp, or_assoc]

/-- R271: on an idle engine `DATA` stays. -/
theorem State.dataAfterSoftReset_idle {s : State} (hidle : s.pend = none) : s.dataAfterSoftReset = s.data := by
  simp [State.dataAfterSoftReset, hidle]

/-- R272: the word in flight decides whether `DATA` is poisoned whole or stays. -/
theorem State.dataAfterSoftReset_busy {s : State} {p : Pending} (hp : s.pend = some p) :
    s.dataAfterSoftReset = if p.cmd.toNat % 256 ∈ [1, 2, 3, 4] then [] else s.data := by
  simp only [State.dataAfterSoftReset, hp, abortsTransform_iff]

/-- Settles O23: the write is accepted in flight or not, and makes the soft reset of R271. -/
theorem softResetClearsAndAborts : Obligations.SoftResetClearsAndAborts := by
  intro s v hv
  have hnext : hostAccess (.write 0x0008 8 v) s = .next s.softReset := by
    rw [hostAccess_writeCtrl, s.writeCtrl_of_set hv]
  refine ⟨s.softReset, hnext, ctrlWord_softReset s, statusWord_softReset s,
    rfl, rfl, rfl, rfl, rfl, rfl, rfl, rfl, rfl, rfl, rfl, rfl, rfl, fun _ => rfl, fun hidle => ?idle,
    fun p hp => ⟨fun htransform _ => ?poisoned, fun hother => ?kept⟩⟩
  case idle => rw [State.softReset_data, State.dataAfterSoftReset_idle hidle]
  case poisoned => rw [State.softReset_data, State.dataAfterSoftReset_busy hp, if_pos htransform, Memory.read_nil]
  case kept => rw [State.softReset_data, State.dataAfterSoftReset_busy hp, if_neg hother]

/-! ## A polled command -/

/-- R65: a host step that reads `STATUS` takes its event and returns the word to the host. -/
theorem hostStep_readStatus (rest : List HostEvent) (s : State) :
    hostStep (.access (.read 0x0010 8)) rest s = .next ((s.tookEvent rest).receive s.statusWord) :=
  hostAccess_readStatus _

/-- A run that begins with a step of known next state. -/
theorem run_after_step {s u : State} (h : step s = .next u) (k : Nat) :
    Sys2Proof.core.run (k + 1) s = Sys2Proof.core.run k u := by
  rw [Nat.add_comm, run_add ((run_one s).trans h)]

/-- R244: when the step is the engine's, it is a run of one step that completes the command in flight. -/
theorem run_one_completes {s : State} (hbusy : s.pend ≠ none) (hengine : step s = engineStep s) :
    ∃ t, Sys2Proof.core.run 1 s = .next t ∧ t.pend = none ∧ t.done = true := by
  obtain ⟨t, ht, hpend, hdone, -⟩ := engineStep_completes hbusy
  exact ⟨t, (run_one s).trans (hengine.trans ht), hpend, hdone⟩

/-- Settles O9, by induction on the reads still to come: either the engine moves and completes the command, or the host
makes one read, which leaves the command in flight. -/
theorem polledCommandCompletes : Obligations.PolledCommandCompletes := by
  intro n
  induction n with
  | zero =>
    intro s hbusy hq
    exact ⟨1, le_rfl, run_one_completes hbusy (step_of_no_event hq)⟩
  | succ n ih =>
    intro s hbusy hq
    obtain ⟨-, -, hmove⟩ := everyStepIsOneAgentsMove s
    rcases (hmove _ _ hq).2 hbusy with hengine | hhost
    · exact ⟨1, by omega, run_one_completes hbusy hengine⟩
    · rw [hostStep_readStatus] at hhost
      obtain ⟨k, hk, t, hrun, hcompleted⟩ := ih ((s.tookEvent (List.replicate n _)).receive s.statusWord) hbusy rfl
      exact ⟨k + 1, by omega, t, (run_after_step hhost k).trans hrun, hcompleted⟩

end Sys2Proof.Machine
